-- ==== Sys2Proof/Word.lean ====
section
/-! DEFINITION. The word types of the core (00_scope.md R7, 30_encoding.md R61). -/

namespace Sys2Proof

/-- A byte: a variable register, a memory cell, an immediate byte `nn`. -/
abbrev Byte := BitVec 8

/-- 16 bits: an instruction word, `pc`, `I`, a stack slot. -/
abbrev Word := BitVec 16

/-- 4 bits: one nibble of an instruction word. -/
abbrev Nibble := BitVec 4

/-- The 12-bit field `nnn`: an address or the sub-opcode of category 0x0. -/
abbrev Addr := BitVec 12

/-- The number of a variable register, 0..15 (10_state.md R20). -/
abbrev Reg := Fin 16

/-- VF, the flag register (10_state.md R21). -/
abbrev vf : Reg := 15

end Sys2Proof
end

