-- ==== Sys2Proof/Syntax.lean ====
section
/-! DEFINITION. The instructions: one constructor per row of spec/opcode_table.json
(30_encoding.md R71), the four error classes included. -/

namespace Sys2Proof

/-- An instruction. Field names are those of 30_encoding.md R61. The error classes keep every bit
their category leaves open, so that no word loses a bit (log entry 13). -/
inductive Instr where
  /-- `00E0` CLS -/
  | cls
  /-- `00EE` RET -/
  | ret
  /-- `1NNN` JP addr -/
  | jp (nnn : Addr)
  /-- `2NNN` CALL addr -/
  | call (nnn : Addr)
  /-- `3XNN` SE Vx, byte -/
  | seImm (x : Reg) (nn : Byte)
  /-- `4XNN` SNE Vx, byte -/
  | sneImm (x : Reg) (nn : Byte)
  /-- `5XYN` SE Vx, Vy; `n` is ignored (R68) -/
  | seReg (x y : Reg) (n : Nibble)
  /-- `6XNN` LD Vx, byte -/
  | ldImm (x : Reg) (nn : Byte)
  /-- `7XNN` ADD Vx, byte -/
  | addImm (x : Reg) (nn : Byte)
  /-- `8XY0` LD Vx, Vy -/
  | ldReg (x y : Reg)
  /-- `8XY1` OR Vx, Vy -/
  | orReg (x y : Reg)
  /-- `8XY2` AND Vx, Vy -/
  | andReg (x y : Reg)
  /-- `8XY3` XOR Vx, Vy -/
  | xorReg (x y : Reg)
  /-- `8XY4` ADD Vx, Vy -/
  | addReg (x y : Reg)
  /-- `8XY5` SUB Vx, Vy -/
  | sub (x y : Reg)
  /-- `8XY6` SHR Vx, Vy -/
  | shr (x y : Reg)
  /-- `8XY7` SUBN Vx, Vy -/
  | subn (x y : Reg)
  /-- `8XYE` SHL Vx, Vy -/
  | shl (x y : Reg)
  /-- `9XYN` SNE Vx, Vy; `n` is ignored (R68) -/
  | sneReg (x y : Reg) (n : Nibble)
  /-- `ANNN` LD I, addr -/
  | ldI (nnn : Addr)
  /-- `BNNN` JP V0, addr -/
  | jpV0 (nnn : Addr)
  /-- `CXNN` RND Vx, byte -/
  | rnd (x : Reg) (nn : Byte)
  /-- `DXYN` DRW Vx, Vy, nib -/
  | drw (x y : Reg) (n : Nibble)
  /-- `FX1E` ADD I, Vx -/
  | addI (x : Reg)
  /-- `FX29` LD F, Vx -/
  | ldF (x : Reg)
  /-- `FX33` LD B, Vx -/
  | ldB (x : Reg)
  /-- `FX55` LD [I], Vx -/
  | stRegs (x : Reg)
  /-- `FX65` LD Vx, [I] -/
  | ldRegs (x : Reg)
  /-- `0NNN` other than `00E0` and `00EE`: machine-routine call (R85) -/
  | errSys (nnn : Addr)
  /-- `8XYn` with an unassigned `n` (R87) -/
  | errAlu (x y : Reg) (n : Nibble)
  /-- `EXXX`: the category with no handler (R86) -/
  | errE (nnn : Addr)
  /-- `FXnn` with an unassigned `nn` (R88) -/
  | errF (x : Reg) (nn : Byte)
  deriving DecidableEq, Repr

end Sys2Proof
end

