-- ==== Sys2Proof/WellFormed.lean ====
section
/-! DEFINITION. Which terms of `Instr` stand for words. Operand ranges hold by type; what is left
is that an error class holds only words no instruction row matches (30_encoding.md R69, R72). -/

namespace Sys2Proof

/-- The words of category 0x0 that are instructions (R65). -/
def assignedSys (nnn : Addr) : Bool := nnn == 0x0E0#12 || nnn == 0x0EE#12

/-- The sub-opcodes of category 0x8 that are instructions (R66). -/
def assignedAlu (n : Nibble) : Bool :=
  n == 0x0#4 || n == 0x1#4 || n == 0x2#4 || n == 0x3#4 || n == 0x4#4 || n == 0x5#4 ||
  n == 0x6#4 || n == 0x7#4 || n == 0xE#4

/-- The sub-opcodes of category 0xF that are instructions (R67). -/
def assignedF (nn : Byte) : Bool :=
  nn == 0x1E#8 || nn == 0x29#8 || nn == 0x33#8 || nn == 0x55#8 || nn == 0x65#8

/-- The well-formed instructions: every operand of an instruction row, and the error-class words
of R69. -/
def Instr.wf : Instr → Bool
  | .errSys nnn => !assignedSys nnn
  | .errAlu _ _ n => !assignedAlu n
  | .errF _ nn => !assignedF nn
  | .errE _ => true
  | .cls | .ret => true
  | .jp _ | .call _ | .ldI _ | .jpV0 _ => true
  | .seImm _ _ | .sneImm _ _ | .ldImm _ _ | .addImm _ _ | .rnd _ _ => true
  | .seReg _ _ _ | .sneReg _ _ _ | .drw _ _ _ => true
  | .ldReg _ _ | .orReg _ _ | .andReg _ _ | .xorReg _ _ | .addReg _ _ => true
  | .sub _ _ | .shr _ _ | .subn _ _ | .shl _ _ => true
  | .addI _ | .ldF _ | .ldB _ | .stRegs _ | .ldRegs _ => true

/-- `i` is well formed. -/
abbrev Instr.WellFormed (i : Instr) : Prop := i.wf = true

end Sys2Proof
end

