-- ==== Sys2Proof/Decode.lean ====
section
/-! DEFINITION. The decoder, from bytes and from a word, and the encoder (30_encoding.md R60 to
R72, 40_fetch_decode.md R82, R83). -/

namespace Sys2Proof

/-- `w[15:12]`, the leading nibble (R61). -/
def fieldOp (w : Word) : Nibble := w.extractLsb' 12 4

/-- `x = w[11:8]` (R61). -/
def fieldX (w : Word) : Reg := (w.extractLsb' 8 4).toFin

/-- `y = w[7:4]` (R61). -/
def fieldY (w : Word) : Reg := (w.extractLsb' 4 4).toFin

/-- `n = w[3:0]` (R61). -/
def fieldN (w : Word) : Nibble := w.extractLsb' 0 4

/-- `nn = w[7:0]` (R61). -/
def fieldNN (w : Word) : Byte := w.extractLsb' 0 8

/-- `nnn = w[11:0]` (R61). -/
def fieldNNN (w : Word) : Addr := w.extractLsb' 0 12

/-- Category 0x0, keyed on all of `nnn` (R65). -/
def decodeSys (nnn : Addr) : Instr :=
  if nnn = 0x0E0#12 then .cls else if nnn = 0x0EE#12 then .ret else .errSys nnn

/-- Category 0x8, keyed on `n` (R66). -/
def decodeAlu (x y : Reg) (n : Nibble) : Instr :=
  if n = 0x0#4 then .ldReg x y
  else if n = 0x1#4 then .orReg x y
  else if n = 0x2#4 then .andReg x y
  else if n = 0x3#4 then .xorReg x y
  else if n = 0x4#4 then .addReg x y
  else if n = 0x5#4 then .sub x y
  else if n = 0x6#4 then .shr x y
  else if n = 0x7#4 then .subn x y
  else if n = 0xE#4 then .shl x y
  else .errAlu x y n

/-- Category 0xF, keyed on `nn` (R67). -/
def decodeF (x : Reg) (nn : Byte) : Instr :=
  if nn = 0x1E#8 then .addI x
  else if nn = 0x29#8 then .ldF x
  else if nn = 0x33#8 then .ldB x
  else if nn = 0x55#8 then .stRegs x
  else if nn = 0x65#8 then .ldRegs x
  else .errF x nn

/-- First-level decode, keyed on the leading nibble (R64). Total on the 65536 words (R70). -/
def decodeWord (w : Word) : Instr :=
  match (fieldOp w).toNat with
  | 0x0 => decodeSys (fieldNNN w)
  | 0x1 => .jp (fieldNNN w)
  | 0x2 => .call (fieldNNN w)
  | 0x3 => .seImm (fieldX w) (fieldNN w)
  | 0x4 => .sneImm (fieldX w) (fieldNN w)
  | 0x5 => .seReg (fieldX w) (fieldY w) (fieldN w)
  | 0x6 => .ldImm (fieldX w) (fieldNN w)
  | 0x7 => .addImm (fieldX w) (fieldNN w)
  | 0x8 => decodeAlu (fieldX w) (fieldY w) (fieldN w)
  | 0x9 => .sneReg (fieldX w) (fieldY w) (fieldN w)
  | 0xA => .ldI (fieldNNN w)
  | 0xB => .jpV0 (fieldNNN w)
  | 0xC => .rnd (fieldX w) (fieldNN w)
  | 0xD => .drw (fieldX w) (fieldY w) (fieldN w)
  | 0xE => .errE (fieldNNN w)
  | _ => decodeF (fieldX w) (fieldNN w)

/-- Why bytes are no instruction. -/
inductive DecodeError where
  /-- Fewer than the two bytes of a word (R60). No word is refused (R70). -/
  | truncated
  deriving DecidableEq, Repr

/-- The big-endian word of two bytes, high byte first (20_memory.md R43, R47). -/
def wordOfBytes (hi lo : Byte) : Word := hi ++ lo

/-- The high byte of a word. -/
def highByte (w : Word) : Byte := w.extractLsb' 8 8

/-- The low byte of a word. -/
def lowByte (w : Word) : Byte := w.extractLsb' 0 8

/-- Decode from bytes as the fetch reads them: the instruction and the bytes left. -/
def decode : List Byte → Except DecodeError (Instr × List Byte)
  | hi :: lo :: rest => .ok (decodeWord (wordOfBytes hi lo), rest)
  | _ => .error .truncated

/-- Formats `F0` and `FA` (R62). -/
def encFA (op : Nibble) (nnn : Addr) : Word := op ++ nnn

/-- Formats `FXI` and `FX` (R62). -/
def encFXI (op : Nibble) (x : Reg) (nn : Byte) : Word := op ++ (BitVec.ofFin (w := 4) x ++ nn)

/-- Formats `FXY` and `FXYN` (R62). -/
def encFXY (op : Nibble) (x y : Reg) (n : Nibble) : Word :=
  op ++ (BitVec.ofFin (w := 4) x ++ (BitVec.ofFin (w := 4) y ++ n))

/-- The word of an instruction, from the layouts of R62 and the keys of R64 to R67. -/
def encode : Instr → Word
  | .cls => encFA 0x0 0x0E0
  | .ret => encFA 0x0 0x0EE
  | .jp nnn => encFA 0x1 nnn
  | .call nnn => encFA 0x2 nnn
  | .seImm x nn => encFXI 0x3 x nn
  | .sneImm x nn => encFXI 0x4 x nn
  | .seReg x y n => encFXY 0x5 x y n
  | .ldImm x nn => encFXI 0x6 x nn
  | .addImm x nn => encFXI 0x7 x nn
  | .ldReg x y => encFXY 0x8 x y 0x0
  | .orReg x y => encFXY 0x8 x y 0x1
  | .andReg x y => encFXY 0x8 x y 0x2
  | .xorReg x y => encFXY 0x8 x y 0x3
  | .addReg x y => encFXY 0x8 x y 0x4
  | .sub x y => encFXY 0x8 x y 0x5
  | .shr x y => encFXY 0x8 x y 0x6
  | .subn x y => encFXY 0x8 x y 0x7
  | .shl x y => encFXY 0x8 x y 0xE
  | .sneReg x y n => encFXY 0x9 x y n
  | .ldI nnn => encFA 0xA nnn
  | .jpV0 nnn => encFA 0xB nnn
  | .rnd x nn => encFXI 0xC x nn
  | .drw x y n => encFXY 0xD x y n
  | .addI x => encFXI 0xF x 0x1E
  | .ldF x => encFXI 0xF x 0x29
  | .ldB x => encFXI 0xF x 0x33
  | .stRegs x => encFXI 0xF x 0x55
  | .ldRegs x => encFXI 0xF x 0x65
  | .errSys nnn => encFA 0x0 nnn
  | .errAlu x y n => encFXY 0x8 x y n
  | .errE nnn => encFA 0xE nnn
  | .errF x nn => encFXI 0xF x nn

/-- The bytes of an instruction in memory order (R60). -/
def encodeBytes (i : Instr) : List Byte := [highByte (encode i), lowByte (encode i)]

/-- The word of the opcode table's numbering: the low `nbits` bits of `w`, 16 at most. -/
def tableWord (nbits w : Nat) : Word := BitVec.ofNat 16 (w % 2 ^ nbits)

/-- The instruction the decoder reads from a word of the opcode table, laid out big-endian. -/
def decodeTableWord (nbits w : Nat) : Option Instr :=
  match decode [highByte (tableWord nbits w), lowByte (tableWord nbits w)] with
  | .ok (i, _) => some i
  | .error _ => none

end Sys2Proof
end

