-- ==== Sys2Proof/Config.lean ====
section
/-! DEFINITION. The parameters the source leaves open (00_scope.md R8), and the free random byte
(42_alu.md R132). -/

namespace Sys2Proof

/-- `ADDR_POLICY` (20_memory.md R42). -/
inductive AddrPolicy where
  | wrap
  | fault
  deriving DecidableEq, Repr

/-- `SHIFT_SOURCE` (42_alu.md R129, R131). -/
inductive ShiftSource where
  | vx
  | vy
  deriving DecidableEq, Repr

/-- `LDST_I_MODE` (43_index_memory.md R155). -/
inductive LdstIMode where
  | keep
  | advance
  deriving DecidableEq, Repr

/-- `FONT_WRITE` (20_memory.md R44). -/
inductive FontWrite where
  | allow
  | ignore
  | fault
  deriving DecidableEq, Repr

/-- The nine parameters of R8. Plain data that no instruction writes (10_state.md R37);
DESIGN CHOICE: the state carries them, see log entry 1. -/
structure Config where
  /-- `PROG_BASE` -/
  progBase : Nat
  /-- `FONT_BASE` -/
  fontBase : Nat
  /-- `FONT_DATA`, 16 glyphs of 5 bytes -/
  fontData : Vector Byte 80
  /-- `DISPLAY_W` -/
  displayW : Nat
  /-- `DISPLAY_H` -/
  displayH : Nat
  addrPolicy : AddrPolicy
  shiftSource : ShiftSource
  ldstIMode : LdstIMode
  fontWrite : FontWrite
  deriving DecidableEq, Repr

/-- `MEM_SIZE` (R7). -/
abbrev memSize : Nat := 4096

/-- `FONT_GLYPHS * GLYPH_BYTES` (R7). -/
abbrev fontSize : Nat := 80

/-- The legal values of R8, row by row. The two alternatives of the `PROG_BASE` row are kept as
they stand (DESIGN CHOICE, log entry 11). -/
abbrev Config.Legal (c : Config) : Prop :=
  c.progBase % 2 = 0 ∧ c.progBase ≤ 0xFFF ∧ c.fontBase + fontSize ≤ memSize ∧
  (c.fontBase + fontSize ≤ c.progBase ∨ c.progBase + fontSize ≤ c.fontBase) ∧
  1 ≤ c.displayW ∧ 1 ≤ c.displayH

/-- The default `FONT_DATA`, the table of 20_memory.md R46, one glyph a line. -/
def defaultFont : Vector Byte 80 :=
  #v[0xF0, 0x90, 0x90, 0x90, 0xF0,
     0x20, 0x60, 0x20, 0x20, 0x70,
     0xF0, 0x10, 0xF0, 0x80, 0xF0,
     0xF0, 0x10, 0xF0, 0x10, 0xF0,
     0x90, 0x90, 0xF0, 0x10, 0x10,
     0xF0, 0x80, 0xF0, 0x10, 0xF0,
     0xF0, 0x80, 0xF0, 0x90, 0xF0,
     0xF0, 0x10, 0x20, 0x40, 0x40,
     0xF0, 0x90, 0xF0, 0x90, 0xF0,
     0xF0, 0x90, 0xF0, 0x10, 0xF0,
     0xF0, 0x90, 0xF0, 0x90, 0x90,
     0xE0, 0x90, 0xE0, 0x90, 0xE0,
     0xF0, 0x80, 0x80, 0x80, 0xF0,
     0xE0, 0x90, 0x90, 0x90, 0xE0,
     0xF0, 0x80, 0xF0, 0x80, 0xF0,
     0xF0, 0x80, 0xF0, 0x80, 0x80]

/-- The default column of R8. PRESUMED by the spec itself from general knowledge: the bases, the
font and the display size (log entry 12). -/
def Config.default : Config where
  progBase := 0x200
  fontBase := 0x050
  fontData := defaultFont
  displayW := 64
  displayH := 32
  addrPolicy := .wrap
  shiftSource := .vx
  ldstIMode := .keep
  fontWrite := .allow

/-- The random byte the host supplies with the `k`-th step: a free value, a draw under no law
(42_alu.md R132, 92_eei_decisions.md D20; log entry 2). It has no body, so nothing can be proved
of its value. -/
opaque Config.randomByte : Nat → Byte

end Sys2Proof
end

