-- ==== Sys2Proof/Machine/State.lean ====
section
/-! DEFINITION. The state of one core (10_state.md R20 to R38), the status kinds, and reset. -/

namespace Sys2Proof.Machine

/-- The status kinds of a step (60_exceptions.md R200). -/
inductive StatusKind where
  | success
  | unknownInstruction
  | invalidInstruction
  | invalidMemoryAccess
  | invalidStackOperation
  deriving DecidableEq, Repr

/-- A cycle status: the kind and the raw instruction word (10_state.md R33). -/
structure CycleStatus where
  kind : StatusKind
  word : Word
  deriving DecidableEq, Repr

/-- What a failed push or pop says (10_state.md R28, R29). -/
inductive StackFailure where
  | stackOverflow
  | stackUnderflow
  deriving DecidableEq, Repr

/-- The result of `bootstrap` and of `loadProgram` (20_memory.md R52, 60_exceptions.md R217). -/
inductive BootResult where
  | ok
  | capacityError
  deriving DecidableEq, Repr

/-- Memory: the bytes that differ from what an unlisted address reads as, addresses rising. -/
abbrev Memory := List Host.Cell

/-- The framebuffer: the set pixels by number, column `c` of row `r` being `r * DISPLAY_W + c`,
numbers rising; an unlisted pixel is false. -/
abbrev Framebuffer := List (Nat × Bool)

/-- A step never ends in a fault: every failure is a status of a step that returns, and the core
stays steppable (40_fetch_decode.md R80, R84; log entry 5). So no fault has a constructor. -/
inductive Fault where
  deriving DecidableEq, Repr

/-- Why a step gives an instruction no meaning. -/
inductive Refusal where
  /-- Raised only by an arm of `exec` whose instruction has no meaning yet; no arm does. Safe. -/
  | notModelled (mnemonic : String)
  /-- Raised by `step`, and by nothing else, from a state that no bootstrap has set up: the spec gives
  such a state no step (70_reset_and_hazards.md R235, decision D24; log entry 9). Safe. -/
  | notBootstrapped
  deriving DecidableEq, Repr

/-- The state. `v` to `fb` are the spec's (10_state.md R38). `ir`, `status` and `record` are the
step's output and its bookkeeping (R33, 60_exceptions.md R207; log entries 3 and 4). `cfg`, `rnd`,
`draws` and `booted` are the model's own: the parameters of R8, the step's input byte, and where the
core stands in its lifecycle (log entries 1, 2, 9). -/
structure State where
  cfg : Config
  /-- V0..VF (R20) -/
  v : Vector Byte 16
  /-- the program counter (R23) -/
  pc : Word
  /-- the index register (R27) -/
  I : Word
  /-- the stack depth, 0..16 (R28) -/
  sp : Fin 17
  /-- the stack slots (R28) -/
  stk : Vector Word 16
  mem : Memory
  fb : Framebuffer
  /-- the word fetched by the step, `w` of 40_fetch_decode.md R80 -/
  ir : Word
  /-- the cycle status of the last step, none before the first -/
  status : Option CycleStatus
  /-- every non-Success status of the run, newest first (60_exceptions.md R207) -/
  record : List CycleStatus
  /-- the input byte `rnd` of the step about to run (00_scope.md R13) -/
  rnd : Byte
  /-- how many input bytes have been taken -/
  draws : Nat
  /-- has a bootstrap set this state up? (70_reset_and_hazards.md R235) -/
  booted : Bool
  deriving DecidableEq, Repr

/-- The state after `bootstrap` of an empty ROM under the default parameters (10_state.md R38,
70_reset_and_hazards.md R230). `ir` 0x0000, the empty record and the input `rnd` are DESIGN CHOICES
(log entries 2, 3, 4); the program is loaded by `bootstrap` (log entry 10). -/
def State.reset : State where
  cfg := .default
  v := .replicate 16 0
  pc := 0x200
  I := 0
  sp := 0
  stk := .replicate 16 0
  mem := []
  fb := []
  ir := 0
  status := none
  record := []
  rnd := Config.randomByte 0
  draws := 1
  booted := true

end Sys2Proof.Machine
end

