-- ==== Sys2Proof/Machine/Ops.lean ====
section
/-! DEFINITION. The named operations: registers, memory, stack, framebuffer, and reporting a
status, which is all that stands in place of an exception (60_exceptions.md R200, R206). -/

namespace Sys2Proof.Machine

/-- What an instruction answers. -/
abbrev Result := Host.Outcome State Fault Refusal

/-! ### Sparse cells -/

/-- The value at key `a`; an unlisted key reads as `d a`. -/
def Cells.get {β : Type} (d : Nat → β) : List (Nat × β) → Nat → β
  | [], a => d a
  | (k, v) :: rest, a => if k = a then v else Cells.get d rest a

/-- List `(a, v)` before the first larger key. -/
def Cells.insert {β : Type} (a : Nat) (v : β) : List (Nat × β) → List (Nat × β)
  | [] => [(a, v)]
  | (k, w) :: rest => if a < k then (a, v) :: (k, w) :: rest else (k, w) :: Cells.insert a v rest

/-- Drop the entries of key `a`. -/
def Cells.erase {β : Type} (a : Nat) : List (Nat × β) → List (Nat × β)
  | [] => []
  | (k, w) :: rest => if k = a then Cells.erase a rest else (k, w) :: Cells.erase a rest

/-- Write `v` at key `a`. A value an unlisted key reads as is not listed. -/
def Cells.set {β : Type} [DecidableEq β] (d : Nat → β) (a : Nat) (v : β) (m : List (Nat × β)) :
    List (Nat × β) :=
  if v = d a then Cells.erase a m else Cells.insert a v (Cells.erase a m)

/-- The canonical form: keys rise strictly and no entry equals what its key reads as unlisted. -/
abbrev Cells.Wf {β : Type} (d : Nat → β) (m : List (Nat × β)) : Prop :=
  m.Pairwise (fun p q => p.1 < q.1) ∧ ∀ p ∈ m, p.2 ≠ d p.1

/-! ### Variable registers (10_state.md R20) -/

/-- `V[x]`. -/
def State.getV (s : State) (x : Reg) : Byte := s.v[x.val]

/-- `V[x] <- b`. -/
def State.setV (s : State) (x : Reg) (b : Byte) : State := { s with v := s.v.set x.val b }

/-- `V[k] <- b` for the bytes `b` of a list, from `k` on. -/
def State.setRange (k : Nat) : List Byte → State → State
  | [], s => s
  | b :: bs, s => State.setRange (k + 1) bs (if h : k < 16 then s.setV ⟨k, h⟩ b else s)

/-- `pc <- t`. -/
def State.setPc (s : State) (t : Word) : State := { s with pc := t }

/-- `I <- t`. -/
def State.setI (s : State) (t : Word) : State := { s with I := t }

/-- `M <- m`. -/
def State.setMem (s : State) (m : Memory) : State := { s with mem := m }

/-- `FB <- f`. -/
def State.setFb (s : State) (f : Framebuffer) : State := { s with fb := f }

/-- `stk <- k, sp <- d`. -/
def State.setStack (s : State) (d : Fin 17) (k : Vector Word 16) : State :=
  { s with sp := d, stk := k }

/-! ### Memory (20_memory.md R40 to R59) -/

/-- Does the font region hold address `a`? (R45) -/
def Config.inFont (c : Config) (a : Nat) : Bool :=
  decide (c.fontBase ≤ a) && decide (a < c.fontBase + fontSize)

/-- What an unlisted address reads as: the contents `initialize` leaves, zero and the font
(R51; log entry 6). -/
def Memory.blank (c : Config) (a : Nat) : Byte :=
  if h : c.fontBase ≤ a ∧ a < c.fontBase + fontSize then
    c.fontData[a - c.fontBase]'(by have h2 : a < c.fontBase + 80 := h.2; omega)
  else 0

/-- `M[a]`. -/
def Memory.read (c : Config) (m : Memory) (a : Nat) : Byte := Cells.get (Memory.blank c) m a

/-- `M[a] <- b`. -/
def Memory.write (c : Config) (m : Memory) (a : Nat) (b : Byte) : Memory :=
  Cells.set (Memory.blank c) a b m

/-- The canonical form of a memory: that of `Cells`, with every key an address (R41). -/
abbrev Memory.wf (c : Config) (m : Memory) : Prop :=
  Cells.Wf (Memory.blank c) m ∧ ∀ p ∈ m, p.1 < memSize

/-- `M[a]` in a state. -/
def State.byteAt (s : State) (a : Nat) : Byte := Memory.read s.cfg s.mem a

/-- `ea(a)`; none is `raise InvalidMemoryAccess` (R42). -/
def ea (c : Config) (a : Nat) : Option Nat :=
  match c.addrPolicy with
  | .wrap => some (a % memSize)
  | .fault => if a ≤ 0xFFF then some a else none

/-- `MemRead(a, 1)` (R43). -/
def State.memRead (s : State) (a : Nat) : Option Byte := (ea s.cfg a).map s.byteAt

/-- `MemRead(a, 2)`, big-endian (R43). -/
def State.memReadWord (s : State) (a : Nat) : Option Word :=
  match s.memRead a, s.memRead (a + 1) with
  | some hi, some lo => some (hi ++ lo)
  | _, _ => none

/-- `spanAt(a, n)`: `n` bytes from `a` (R58). None if any address is refused (R50). -/
def State.spanRead (s : State) (a : Nat) : Nat → Option (List Byte)
  | 0 => some []
  | n + 1 =>
    match s.memRead a, s.spanRead (a + 1) n with
    | some b, some bs => some (b :: bs)
    | _, _ => none

/-- `MemWrite(a, 1, b)` (R44). None is `raise InvalidMemoryAccess`. -/
def State.memWrite (s : State) (a : Nat) (b : Byte) : Option State :=
  match ea s.cfg a with
  | none => none
  | some e =>
    if Config.inFont s.cfg e then
      match s.cfg.fontWrite with
      | .allow => some (s.setMem (Memory.write s.cfg s.mem e b))
      | .ignore => some s
      | .fault => none
    else some (s.setMem (Memory.write s.cfg s.mem e b))

/-- `MemWrite` of the bytes of a list at consecutive addresses from `a`. None if any address is
refused, and then nothing is written (R50; log entry 14). -/
def State.spanWrite (a : Nat) : List Byte → State → Option State
  | [], s => some s
  | b :: bs, s =>
    match s.memWrite a b with
    | none => none
    | some t => State.spanWrite (a + 1) bs t

/-! ### Call stack (10_state.md R28 to R32) -/

/-- `Push(a)` (R28). -/
def State.push (s : State) (a : Word) : Except StackFailure State :=
  if h : s.sp.val < 16 then
    .ok (s.setStack ⟨s.sp.val + 1, by omega⟩ (s.stk.set s.sp.val a))
  else .error .stackOverflow

/-- `Peek()` (R30). -/
def State.peek (s : State) : Except StackFailure Word :=
  if _h : 0 < s.sp.val then .ok (s.stk[s.sp.val - 1]'(by omega)) else .error .stackUnderflow

/-- `Pop()`: the address popped and the state after (R29). -/
def State.pop (s : State) : Except StackFailure (Word × State) :=
  if _h : 0 < s.sp.val then
    .ok (s.stk[s.sp.val - 1]'(by omega), s.setStack ⟨s.sp.val - 1, by omega⟩ s.stk)
  else .error .stackUnderflow

/-! ### Framebuffer (44_display.md R170, R171) -/

/-- The number of the pixel in column `x`, row `y`. -/
def Framebuffer.key (c : Config) (x y : Nat) : Nat := y * c.displayW + x

/-- Does the framebuffer have a column `x` and a row `y`? -/
def Framebuffer.inside (c : Config) (x y : Nat) : Bool :=
  decide (x < c.displayW) && decide (y < c.displayH)

/-- `FB[x][y]`; a place outside the framebuffer has no pixel and reads false (log entry 8). -/
def Framebuffer.get (c : Config) (f : Framebuffer) (x y : Nat) : Bool :=
  Framebuffer.inside c x y && Cells.get (fun _ => false) f (Framebuffer.key c x y)

/-- `FB[x][y] <- not FB[x][y]`, for a place inside. -/
def Framebuffer.flip (c : Config) (f : Framebuffer) (x y : Nat) : Framebuffer :=
  Cells.set (fun _ => false) (Framebuffer.key c x y) (!Framebuffer.get c f x y) f

/-- The canonical form of a framebuffer: that of `Cells`, every key a pixel of the grid. -/
abbrev Framebuffer.wf (c : Config) (f : Framebuffer) : Prop :=
  Cells.Wf (fun _ => false) f ∧ ∀ p ∈ f, p.1 < c.displayW * c.displayH

/-- The FRAMEBUFFER interface: the pixel in column `x`, row `y` (00_scope.md R14). -/
def State.pixel (s : State) (x y : Nat) : Bool := Framebuffer.get s.cfg s.fb x y

/-- `Clear()` (R170). -/
def Framebuffer.clear : Framebuffer := []

/-- One bit of a sprite at `(px, py)`: clipped outside, XOR inside; the second component is
`collided` (R171). -/
def drawBit (c : Config) (bit : Bool) (px py : Nat) (acc : Framebuffer × Bool) :
    Framebuffer × Bool :=
  if bit && Framebuffer.inside c px py then
    (Framebuffer.flip c acc.1 px py, acc.2 || Framebuffer.get c acc.1 px py)
  else acc

/-- The bits `k .. 7` of a sprite row, most significant bit first, from column `x0 + k` on (R171).
`left` is how many bits remain. -/
def drawRow (c : Config) (row : Byte) (x0 y : Nat) : Nat → Framebuffer × Bool → Framebuffer × Bool
  | 0, acc => acc
  | left + 1, acc =>
    drawRow c row x0 y left (drawBit c (row.getLsbD left) (x0 + (7 - left)) y acc)

/-- The rows of a sprite from row `y` on (R171). -/
def drawRows (c : Config) (x0 : Nat) : Nat → List Byte → Framebuffer × Bool → Framebuffer × Bool
  | _, [], acc => acc
  | y, row :: rows, acc => drawRows c x0 (y + 1) rows (drawRow c row x0 y 8 acc)

/-- `DrawSprite(x, y, h, rows)`: the framebuffer after, and `collided` (R171). -/
def drawSprite (c : Config) (x y : Byte) (rows : List Byte) (f : Framebuffer) :
    Framebuffer × Bool :=
  drawRows c (x.toNat % c.displayW) (y.toNat % c.displayH) rows (f, false)

/-! ### Status reporting: what stands in place of taking an exception (60_exceptions.md) -/

/-- The numeric code of a kind (R200). -/
def StatusKind.code : StatusKind → Nat
  | .success => 0
  | .unknownInstruction => 1
  | .invalidInstruction => 2
  | .invalidMemoryAccess => 3
  | .invalidStackOperation => 4

/-- The step's status becomes `(k, w)`, `w` the word fetched; a kind other than Success is also
recorded (10_state.md R33, R207). -/
def State.report (s : State) (k : StatusKind) : State :=
  { s with
    status := some ⟨k, s.ir⟩
    record := if k = .success then s.record else ⟨k, s.ir⟩ :: s.record }

/-- An instruction that completes (40_fetch_decode.md R84). -/
def done (s : State) : Result := .next (s.report .success)

/-- `raise K`: the instruction ends, `K` is the step's kind, nothing else changes and control goes
to no handler (R200, R205, R206). There is no return from it (R208). -/
def raise (k : StatusKind) (s : State) : Result := .next (s.report k)

/-- The kind a stack failure reaches the host as (10_state.md R31, R204). -/
def StackFailure.kind : StackFailure → StatusKind
  | .stackOverflow => .invalidStackOperation
  | .stackUnderflow => .invalidStackOperation

/-! ### The step's input byte (00_scope.md R13) -/

/-- The host supplies the byte `b` with the next step. -/
def State.withRnd (s : State) (b : Byte) : State := { s with rnd := b }

/-- A bootstrap has set this state up (70_reset_and_hazards.md R235). -/
def State.markBooted (s : State) : State := { s with booted := true }

/-- After a step the next input byte stands ready: a free value (log entry 2). -/
def State.nextInput (s : State) : State :=
  { s with rnd := Config.randomByte s.draws, draws := s.draws + 1 }

/-- What a step does around an instruction's answer. -/
def afterStep : Result → Result
  | .next t => .next t.nextInput
  | .fault r => .fault r
  | .refused r => .refused r

end Sys2Proof.Machine
end

