-- ==== Sys2Proof/Machine/Boot.lean ====
section
/-! DEFINITION. The BOOT interface (00_scope.md R12, 70_reset_and_hazards.md R230 to R234). -/

namespace Sys2Proof.Machine

/-- `initialize()`: zero and the font (20_memory.md R51). Those are the contents of unlisted
addresses, so nothing is listed. -/
def Memory.initialize : Memory := []

/-- The copy loop of `loadProgram`: raw writes from address `a` on (20_memory.md R52). -/
def Memory.copy (c : Config) : Nat → List Byte → Memory → Memory
  | _, [], m => m
  | a, b :: bs, m => Memory.copy c (a + 1) bs (Memory.write c m a b)

/-- `loadProgram(bytes)` (20_memory.md R52). -/
def Memory.loadProgram (c : Config) (rom : List Byte) (m : Memory) : BootResult × Memory :=
  if memSize - c.progBase < rom.length then (.capacityError, m)
  else (.ok, Memory.copy c c.progBase rom m)

/-- `bootstrap(rom)`. The parameters and the pending input byte stay (log entries 1 and 2); every
other field of the spec takes its value of 10_state.md R38, and from here on the core can step, also
where the result is `CapacityError` (R233, R235). -/
def bootstrap (rom : List Byte) (s : State) : BootResult × State :=
  let r := Memory.loadProgram s.cfg rom Memory.initialize
  (r.1,
   { cfg := s.cfg
     v := .replicate 16 0
     pc := BitVec.ofNat 16 s.cfg.progBase
     I := 0
     sp := 0
     stk := .replicate 16 0
     mem := r.2
     fb := Framebuffer.clear
     ir := 0
     status := none
     record := []
     rnd := s.rnd
     draws := s.draws
     booted := true })

end Sys2Proof.Machine
end

