-- ==== Sys2Proof/Machine/Operands.lean ====
section
/-! DEFINITION. The operand forms (30_encoding.md R61, R63; 43_index_memory.md R150). -/

namespace Sys2Proof.Machine

/-- `zext_16(nnn)` (R63). -/
def zextAddr (nnn : Addr) : Word := nnn.setWidth 16

/-- `zext_16` of a byte. -/
def zextByte (b : Byte) : Word := b.setWidth 16

/-- Index plus constant offset: the address `I + k` before `ea` (R150). -/
def State.indexAddr (s : State) (k : Nat) : Nat := s.I.toNat + k

/-- The operand a shift reads: `V[x]`, or `V[y]` under `SHIFT_SOURCE = VY` (42_alu.md R129, R131). -/
def State.shiftOperand (s : State) (x y : Reg) : Byte :=
  match s.cfg.shiftSource with
  | .vx => s.getV x
  | .vy => s.getV y

/-- `V[0], ..., V[x]`, the registers `FX55` stores (43_index_memory.md R156). -/
def State.regsUpTo (s : State) (x : Reg) : List Byte := s.v.toList.take (x.val + 1)

/-- `FONT_BASE + (b & 0xF) * 5`, the address of a glyph (43_index_memory.md R153). -/
def glyphAddr (c : Config) (b : Byte) : Word :=
  BitVec.ofNat 16 (c.fontBase + (b &&& 0x0F).toNat * 5)

/-- The three decimal digits of a byte, most significant first (43_index_memory.md R154). -/
def decimalDigits (b : Byte) : List Byte :=
  [BitVec.ofNat 8 (b.toNat / 100), BitVec.ofNat 8 (b.toNat / 10 % 10), BitVec.ofNat 8 (b.toNat % 10)]

/-- `I + d` reduced to 12 bits (43_index_memory.md R152, R155). -/
def indexPlus (i : Word) (d : Nat) : Word := BitVec.ofNat 16 ((i.toNat + d) % memSize)

/-- `I` after a block transfer of `V[0]..V[x]` (43_index_memory.md R155). -/
def State.indexAfterBlock (s : State) (x : Reg) : Word :=
  match s.cfg.ldstIMode with
  | .keep => s.I
  | .advance => indexPlus s.I (x.val + 1)

end Sys2Proof.Machine
end

