-- ==== Sys2Proof/Machine/Flags.lean ====
section
/-! DEFINITION. The flag computations (10_state.md R21) and the order of the result and flag
writes (10_state.md R22). -/

namespace Sys2Proof.Machine

/-- The byte written to VF for a flag. -/
def flagByte (b : Bool) : Byte := if b then 1 else 0

/-- `8XY4`: the unsigned sum passes 255 (42_alu.md R127). -/
def carryOut (a b : Byte) : Bool := decide (255 < a.toNat + b.toNat)

/-- `8XY5` and `8XY7`: `a - b` does not borrow (42_alu.md R128, R130). -/
def noBorrow (a b : Byte) : Bool := decide (b.toNat ≤ a.toNat)

/-- `8XY6`: bit 0 before the shift (42_alu.md R129). -/
def lowBit (a : Byte) : Bool := a.getLsbD 0

/-- `8XYE`: bit 7 before the shift (42_alu.md R131). -/
def highBit (a : Byte) : Bool := a.getLsbD 7

/-- `FX1E`: `I + VX` passes 0xFFF (43_index_memory.md R152). -/
def indexOverflow (i : Word) (b : Byte) : Bool := decide (0xFFF < i.toNat + b.toNat)

/-- `VF <- flag`. -/
def State.setFlag (s : State) (b : Bool) : State := s.setV vf (flagByte b)

/-- `V[x] <- r`, then VF, so that VF holds the flag when `x = 15` (10_state.md R22). -/
def State.setResultFlag (s : State) (x : Reg) (r : Byte) (flag : Bool) : State :=
  (s.setV x r).setFlag flag

end Sys2Proof.Machine
end

