-- ==== Sys2Proof/Machine/Alu.lean ====
section
/-! DEFINITION. Register loads and the ALU (42_alu.md R120 to R134). Operands are read before
anything is written (10_state.md R39). -/

namespace Sys2Proof.Machine

/-- `6XNN` LD Vx, byte (R121). -/
def execLdImm (x : Reg) (nn : Byte) (s : State) : Result := done (s.setV x nn)

/-- `7XNN` ADD Vx, byte: no flag (R122). -/
def execAddImm (x : Reg) (nn : Byte) (s : State) : Result := done (s.setV x (s.getV x + nn))

/-- `8XY0` LD Vx, Vy (R123). -/
def execLdReg (x y : Reg) (s : State) : Result := done (s.setV x (s.getV y))

/-- `8XY1` OR Vx, Vy (R124). -/
def execOrReg (x y : Reg) (s : State) : Result := done (s.setV x (s.getV x ||| s.getV y))

/-- `8XY2` AND Vx, Vy (R125). -/
def execAndReg (x y : Reg) (s : State) : Result := done (s.setV x (s.getV x &&& s.getV y))

/-- `8XY3` XOR Vx, Vy (R126). -/
def execXorReg (x y : Reg) (s : State) : Result := done (s.setV x (s.getV x ^^^ s.getV y))

/-- `8XY4` ADD Vx, Vy (R127). -/
def execAddReg (x y : Reg) (s : State) : Result :=
  let a := s.getV x
  let b := s.getV y
  done (s.setResultFlag x (a + b) (carryOut a b))

/-- `8XY5` SUB Vx, Vy (R128). -/
def execSub (x y : Reg) (s : State) : Result :=
  let a := s.getV x
  let b := s.getV y
  done (s.setResultFlag x (a - b) (noBorrow a b))

/-- `8XY6` SHR Vx, Vy (R129). -/
def execShr (x y : Reg) (s : State) : Result :=
  let a := s.shiftOperand x y
  done (s.setResultFlag x (a >>> 1) (lowBit a))

/-- `8XY7` SUBN Vx, Vy (R130). -/
def execSubn (x y : Reg) (s : State) : Result :=
  let a := s.getV x
  let b := s.getV y
  done (s.setResultFlag x (b - a) (noBorrow b a))

/-- `8XYE` SHL Vx, Vy (R131). -/
def execShl (x y : Reg) (s : State) : Result :=
  let a := s.shiftOperand x y
  done (s.setResultFlag x (a <<< 1) (highBit a))

/-- `CXNN` RND Vx, byte: the step's input byte under a mask (R132). -/
def execRnd (x : Reg) (nn : Byte) (s : State) : Result := done (s.setV x (s.rnd &&& nn))

end Sys2Proof.Machine
end

