-- ==== Sys2Proof/Machine/Control.lean ====
section
/-! DEFINITION. Control transfer (41_control.md R100 to R111). The fetch has set `pc` to `p + 2`. -/

namespace Sys2Proof.Machine

/-- Skip the next instruction if `b`: `pc <- (pc + 2) mod 2^16` (R107). -/
def State.skipIf (s : State) (b : Bool) : State := if b then s.setPc (s.pc + 2) else s

/-- `1NNN` JP addr (R100). -/
def execJp (nnn : Addr) (s : State) : Result := done (s.setPc (zextAddr nnn))

/-- `00EE` RET (R101). -/
def execRet (s : State) : Result :=
  match s.pop with
  | .ok (a, t) => done (t.setPc a)
  | .error e => raise e.kind s

/-- `2NNN` CALL addr (R102). -/
def execCall (nnn : Addr) (s : State) : Result :=
  match s.push s.pc with
  | .ok t => done (t.setPc (zextAddr nnn))
  | .error e => raise e.kind s

/-- `3XNN` SE Vx, byte (R103). -/
def execSeImm (x : Reg) (nn : Byte) (s : State) : Result := done (s.skipIf (s.getV x == nn))

/-- `4XNN` SNE Vx, byte (R104). -/
def execSneImm (x : Reg) (nn : Byte) (s : State) : Result := done (s.skipIf (s.getV x != nn))

/-- `5XYN` SE Vx, Vy (R105). -/
def execSeReg (x y : Reg) (s : State) : Result := done (s.skipIf (s.getV x == s.getV y))

/-- `9XYN` SNE Vx, Vy (R106). -/
def execSneReg (x y : Reg) (s : State) : Result := done (s.skipIf (s.getV x != s.getV y))

/-- `BNNN` JP V0, addr (R110). -/
def execJpV0 (nnn : Addr) (s : State) : Result :=
  done (s.setPc (zextAddr nnn + zextByte (s.getV 0)))

end Sys2Proof.Machine
end

