-- ==== Sys2Proof/Machine/Display.lean ====
section
/-! DEFINITION. The framebuffer instructions (44_display.md R170 to R175). -/

namespace Sys2Proof.Machine

/-- `00E0` CLS (R173). -/
def execCls (s : State) : Result := done (s.setFb Framebuffer.clear)

/-- `DXYN` DRW Vx, Vy, nib: the coordinates are read before VF is written (R172). -/
def execDrw (x y : Reg) (n : Nibble) (s : State) : Result :=
  match s.spanRead (s.indexAddr 0) n.toNat with
  | some rows =>
    let d := drawSprite s.cfg (s.getV x) (s.getV y) rows s.fb
    done ((s.setFb d.1).setFlag d.2)
  | none => raise .invalidMemoryAccess s

end Sys2Proof.Machine
end

