-- ==== Sys2Proof/Machine/ErrorClass.lean ====
section
/-! DEFINITION. The four encodings that are not instructions (40_fetch_decode.md R85 to R89). -/

namespace Sys2Proof.Machine

/-- `0NNN`: unsupported machine-routine call (R85). -/
def execErrSys (s : State) : Result := raise .invalidInstruction s

/-- `EXXX`: the category with no handler (R86). -/
def execErrE (s : State) : Result := raise .unknownInstruction s

/-- `8XYn` with an unassigned `n` (R87). -/
def execErrAlu (s : State) : Result := raise .invalidInstruction s

/-- `FXnn` with an unassigned `nn` (R88). -/
def execErrF (s : State) : Result := raise .invalidInstruction s

end Sys2Proof.Machine
end

