-- ==== Sys2Proof/Machine/IndexMemory.lean ====
section
/-! DEFINITION. The index register and memory instructions (43_index_memory.md R150 to R157). -/

namespace Sys2Proof.Machine

/-- `ANNN` LD I, addr (R151). -/
def execLdI (nnn : Addr) (s : State) : Result := done (s.setI (zextAddr nnn))

/-- `FX1E` ADD I, Vx: VF is written only when the sum passes 0xFFF (R152). -/
def execAddI (x : Reg) (s : State) : Result :=
  let b := s.getV x
  let t := s.setI (indexPlus s.I b.toNat)
  done (if indexOverflow s.I b then t.setFlag true else t)

/-- `FX29` LD F, Vx (R153). -/
def execLdF (x : Reg) (s : State) : Result := done (s.setI (glyphAddr s.cfg (s.getV x)))

/-- `FX33` LD B, Vx (R154). -/
def execLdB (x : Reg) (s : State) : Result :=
  match State.spanWrite (s.indexAddr 0) (decimalDigits (s.getV x)) s with
  | some t => done t
  | none => raise .invalidMemoryAccess s

/-- `FX55` LD [I], Vx (R156). -/
def execStRegs (x : Reg) (s : State) : Result :=
  match State.spanWrite (s.indexAddr 0) (s.regsUpTo x) s with
  | some t => done (t.setI (s.indexAfterBlock x))
  | none => raise .invalidMemoryAccess s

/-- `FX65` LD Vx, [I] (R157). -/
def execLdRegs (x : Reg) (s : State) : Result :=
  match s.spanRead (s.indexAddr 0) (x.val + 1) with
  | some bs => done ((State.setRange 0 bs s).setI (s.indexAfterBlock x))
  | none => raise .invalidMemoryAccess s

end Sys2Proof.Machine
end

