-- ==== Sys2Proof/Machine/Fetch.lean ====
section
/-! DEFINITION. The fetch (40_fetch_decode.md R80, R81). -/

namespace Sys2Proof.Machine

/-- The fetch: the word at `pc` is latched and `pc <- (pc + 2) mod 2^16`. None if the fetch fails,
which is possible only under `ADDR_POLICY = fault`, when `pc + 1 > 0xFFF` (R81). -/
def fetch (s : State) : Option State :=
  match s.memReadWord s.pc.toNat with
  | some w => some { s with ir := w, pc := s.pc + 2 }
  | none => none

/-- A failed fetch: the step ends with `(InvalidMemoryAccess, 0x0000)` and `pc` unchanged (R81). -/
def fetchFailed (s : State) : State := { s with ir := 0 }.report .invalidMemoryAccess

/-- The address `withFetchWord` puts an instruction at: `pc` where the fetch from `pc` succeeds,
else `PROG_BASE` (log entry 10). -/
def fetchSlot (s : State) : Word :=
  match s.memReadWord s.pc.toNat with
  | some _ => s.pc
  | none => BitVec.ofNat 16 s.cfg.progBase

/-- The word `w` stored big-endian at address `a`, `ea` by wrapping, past any font protection. -/
def storeWordRaw (s : State) (a : Nat) (hi lo : Byte) : State :=
  s.setMem (Memory.write s.cfg (Memory.write s.cfg s.mem (a % memSize) hi) ((a + 1) % memSize) lo)

end Sys2Proof.Machine
end

