-- ==== Sys2Proof/Machine/Step.lean ====
section
/-! DEFINITION. One step: one fetch, decode and execute (40_fetch_decode.md R80). -/

namespace Sys2Proof.Machine

/-- `step(rnd)` with `rnd` in `s.rnd`; the status returned is the next state's `status`
(00_scope.md R13). Before the first bootstrap there is no step (70_reset_and_hazards.md R235). -/
def step (s : State) : Host.Outcome State Fault Refusal :=
  if s.booted then
    match fetch s with
    | some t => afterStep (exec (decodeWord t.ir) t)
    | none => afterStep (.next (fetchFailed s))
  else .refused .notBootstrapped

/-- `s` with the opcode-table word `w` stored where the next step fetches, big-endian, and ready to
step: it stands for the load of a program by bootstrap. `pc` moves only where the fetch from it would
fail (log entry 10). -/
def State.withFetchWord (s : State) (nbits w : Nat) : State :=
  (storeWordRaw (s.setPc (fetchSlot s)) (fetchSlot s).toNat
    (highByte (tableWord nbits w)) (lowByte (tableWord nbits w))).markBooted

end Sys2Proof.Machine
end

