-- ==== Sys2Proof/Safety.lean ====
section
/-! DEFINITION. What counts as a safe run, the invariant of the machine, and the words the
statements use for what an instruction leaves alone. -/

namespace Sys2Proof.Machine

/-- No non-Success status has been recorded, the premise of R207 for claims about a run. -/
abbrev State.Clean (s : State) : Prop := s.record = []

/-- The invariant: legal parameters, memory and framebuffer in canonical form, `I` a 12-bit address
(10_state.md R27), a record of non-Success statuses only (60_exceptions.md R207), and a bootstrap
behind it (70_reset_and_hazards.md R235). -/
structure State.Inv (s : State) : Prop where
  legal : s.cfg.Legal
  mem : Memory.wf s.cfg s.mem
  fb : Framebuffer.wf s.cfg s.fb
  index : s.I.toNat ≤ 0xFFF
  record : ∀ c ∈ s.record, c.kind ≠ .success
  booted : s.booted = true

/-- The start states of claims about runs (70_reset_and_hazards.md R235): a state that bootstrap leaves
under legal parameters, or that such a state reaches by steps, whatever input bytes the host supplies
(00_scope.md R13). Bootstrap may come at any time and from any state (R232). -/
inductive State.Reached : State → Prop where
  | bootstrap (rom : List Byte) (s : State) :
      s.cfg.Legal → State.Reached (Sys2Proof.Machine.bootstrap rom s).2
  | input (b : Byte) (s : State) : State.Reached s → State.Reached (s.withRnd b)
  | step (s t : State) : State.Reached s → Sys2Proof.Machine.step s = .next t → State.Reached t

/-- The step reports `k` with the word fetched, and records it unless it is Success. -/
def Reports (k : StatusKind) (s t : State) : Prop :=
  t.status = some ⟨k, s.ir⟩ ∧
  t.record = if k = .success then s.record else ⟨k, s.ir⟩ :: s.record

/-- Every variable register outside `xs` is unchanged. -/
def SameRegs (xs : List Reg) (s t : State) : Prop := ∀ r, r ∉ xs → t.getV r = s.getV r

/-- Every byte of memory outside the addresses of `stored` reads as before. -/
def SameMemOutside (stored : Nat → Prop) (s t : State) : Prop :=
  ∀ a, ¬ stored a → t.byteAt a = s.byteAt a

/-- Every byte of memory reads as before. -/
def SameMem (s t : State) : Prop := SameMemOutside (fun _ => False) s t

/-- Every pixel is as before. -/
def SameFb (s t : State) : Prop := ∀ x y, t.pixel x y = s.pixel x y

/-- The stack depth and every slot are as before. -/
def SameStack (s t : State) : Prop := t.sp = s.sp ∧ ∀ k : Fin 16, t.stk[k.val] = s.stk[k.val]

/-- The parameters, the word fetched, the step's input and the lifecycle are as before. -/
def SameRest (s t : State) : Prop :=
  t.cfg = s.cfg ∧ t.ir = s.ir ∧ t.rnd = s.rnd ∧ t.draws = s.draws ∧ t.booted = s.booted

/-- Everything but the variable registers, `pc`, `I` and the step's output is as before. -/
def SameStores (s t : State) : Prop := SameStack s t ∧ SameMem s t ∧ SameFb s t ∧ SameRest s t

/-- A step that reports `k` and has no other effect on what the execute part can change. -/
def OnlyReports (k : StatusKind) (s t : State) : Prop :=
  SameRegs [] s t ∧ t.pc = s.pc ∧ t.I = s.I ∧ SameStores s t ∧ Reports k s t

/-- The instruction the next step runs: the decoding of the word at `pc`; none if the fetch fails
(40_fetch_decode.md R81). -/
def State.instrAt (s : State) : Option Instr := (s.memReadWord s.pc.toNat).map decodeWord

/-- The table of 10_state.md R24: `pc` after the instruction `i` fetched in the state `s`. -/
def pcAfter (i : Instr) (s : State) : Word :=
  match i with
  | .jp nnn => zextAddr nnn
  | .call nnn => if s.sp.val < 16 then zextAddr nnn else s.pc + 2
  | .ret => if _h : 0 < s.sp.val then s.stk[s.sp.val - 1]'(by omega) else s.pc + 2
  | .jpV0 nnn => zextAddr nnn + zextByte (s.getV 0)
  | .seImm x nn => if s.getV x = nn then s.pc + 4 else s.pc + 2
  | .sneImm x nn => if s.getV x ≠ nn then s.pc + 4 else s.pc + 2
  | .seReg x y _ => if s.getV x = s.getV y then s.pc + 4 else s.pc + 2
  | .sneReg x y _ => if s.getV x ≠ s.getV y then s.pc + 4 else s.pc + 2
  | _ => s.pc + 2

/-- `Push` of each address of a list, in order, stopping at the first failure. -/
def pushAll : List Word → State → Except StackFailure State
  | [], s => .ok s
  | a :: as, s =>
    match s.push a with
    | .ok t => pushAll as t
    | .error e => .error e

/-- `n` times `Pop`: the addresses in the order popped, and the state after. -/
def popMany : Nat → State → Except StackFailure (List Word × State)
  | 0, s => .ok ([], s)
  | n + 1, s =>
    match s.pop with
    | .ok (a, t) =>
      match popMany n t with
      | .ok (as, u) => .ok (a :: as, u)
      | .error e => .error e
    | .error e => .error e

/-- Two states that differ at most in stack slots at or above the depth (10_state.md R32). -/
def SameButDeadSlots (s t : State) : Prop :=
  t = { s with stk := t.stk } ∧ ∀ k : Fin 16, k.val < s.sp.val → t.stk[k.val] = s.stk[k.val]

/-- The addresses the `n` bytes of a block access from `I` resolve to (43_index_memory.md R150). -/
def BlockAddr (s : State) (n : Nat) (a : Nat) : Prop :=
  ∃ k, k < n ∧ ea s.cfg (s.indexAddr k) = some a

/-- Every address of a block read of `n` bytes from `I` is accepted (20_memory.md R50). -/
def ReadsAllowed (s : State) (n : Nat) : Prop :=
  s.cfg.addrPolicy = .wrap ∨ ∀ k, k < n → s.indexAddr k ≤ 0xFFF

/-- Every address of a block write of `n` bytes from `I` is accepted (20_memory.md R50). -/
def WritesAllowed (s : State) (n : Nat) : Prop :=
  ReadsAllowed s n ∧
  (s.cfg.fontWrite = .fault → ∀ a, BlockAddr s n a → Config.inFont s.cfg a = false)

/-- A write to address `a` reaches memory: it is not dropped by `FONT_WRITE = ignore`
(20_memory.md R44). -/
def WriteLands (s : State) (a : Nat) : Prop :=
  s.cfg.fontWrite = .ignore → Config.inFont s.cfg a = false

/-- The pixel `(x, y)` lies under an unclipped 1-bit of the sprite `rows` drawn at the origin
`(cx, cy)` (44_display.md R171). -/
def SpriteCovers (c : Config) (cx cy : Byte) (rows : List Byte) (x y : Nat) : Prop :=
  x < c.displayW ∧ y < c.displayH ∧
  ∃ r b : Nat, b < 8 ∧ x = cx.toNat % c.displayW + b ∧ y = cy.toNat % c.displayH + r ∧
    ∃ row, rows[r]? = some row ∧ row.getLsbD (7 - b) = true

end Sys2Proof.Machine
end

