-- ==== Sys2Proof/Certificates/Slice0/Obligations.lean ====
section
/-! DEFINITION. The statements for the provers. Each says which rule of the spec it formalises. The
register, frame and status predicates (`SameRegs`, `SameMemOutside`, `Reports`, ...) are those of
Sys2Proof/Safety.lean; memory is read through `State.byteAt`, pixels through `State.pixel`. -/

open Sys2Proof Sys2Proof.Machine

/-! ### Encoding -/

/-- Decoding the bytes of a well-formed instruction gives it back, whatever bytes follow
(30_encoding.md R60 to R67; the places of `x` and `y` and the sub-opcodes of category 0x8 are the spec's
own, R61 and D8, log entry 13). -/
def Obligations.DecodeReadsBackEveryEncoding : Prop :=
  ∀ (i : Instr) (rest : List Byte), i.WellFormed → decode (encodeBytes i ++ rest) = .ok (i, rest)

/-- Every one of the 65536 words is the word of one well-formed instruction (R70, R72, which the spec
derives). That decode and encode are inverse on all words is the model's choice of constructors, which keep
the bits an error class or an ignored nibble leaves open (log entry 13). -/
def Obligations.EveryWordIsOneInstruction : Prop :=
  ∀ w : Word, (decodeWord w).WellFormed ∧ encode (decodeWord w) = w ∧
    ∀ i : Instr, i.WellFormed → encode i = w → i = decodeWord w

/-- The fields as numbers (R61; the places of `x`, `y` and the height are the spec's own, from general
knowledge, log entry 13). -/
def Obligations.FieldsSitAtTheirBits : Prop :=
  ∀ w : Word, (fieldOp w).toNat = w.toNat / 4096 ∧ (fieldX w).val = w.toNat / 256 % 16 ∧
    (fieldY w).val = w.toNat / 16 % 16 ∧ (fieldN w).toNat = w.toNat % 16 ∧
    (fieldNN w).toNat = w.toNat % 256 ∧ (fieldNNN w).toNat = w.toNat % 4096

/-- Words written out from the spec's encodings (R62, R64 to R68; log entry 13 for what the spec takes
from general knowledge), one or more a format. -/
def Obligations.SampleWordsDecode : Prop :=
  decode [0x00, 0xE0] = .ok (.cls, []) ∧
  decode [0x12, 0x34] = .ok (.jp 0x234, []) ∧
  decode [0x71, 0xFF] = .ok (.addImm 1 0xFF, []) ∧
  decode [0x81, 0x2E] = .ok (.shl 1 2, []) ∧
  decode [0x91, 0x23] = .ok (.sneReg 1 2 0x3, []) ∧
  decode [0xD0, 0x15] = .ok (.drw 0 1 0x5, []) ∧
  decode [0xFA, 0x33] = .ok (.ldB 10, []) ∧
  decode [0x81, 0x2F] = .ok (.errAlu 1 2 0xF, []) ∧
  decode [0xE1, 0x9E] = .ok (.errE 0x19E, []) ∧
  decode [0x00] = .error .truncated

/-- Which words fall in the four error classes (R65, R66, R67, R69; the sub-opcodes of category 0x8 are
the spec's decision D8). -/
def Obligations.ErrorClassesAreTheUnassignedWords : Prop :=
  ∀ w : Word,
    ((∃ nnn, decodeWord w = .errSys nnn) ↔ w.toNat < 0x1000 ∧ w ≠ 0x00E0 ∧ w ≠ 0x00EE) ∧
    ((∃ x y n, decodeWord w = .errAlu x y n) ↔ w.toNat / 4096 = 0x8 ∧
      w.toNat % 16 ∈ [0x8, 0x9, 0xA, 0xB, 0xC, 0xD, 0xF]) ∧
    ((∃ nnn, decodeWord w = .errE nnn) ↔ w.toNat / 4096 = 0xE) ∧
    ((∃ x nn, decodeWord w = .errF x nn) ↔ w.toNat / 4096 = 0xF ∧
      w.toNat % 256 ∉ [0x1E, 0x29, 0x33, 0x55, 0x65])

/-! ### Control transfer -/

/-- R100. -/
def Obligations.JpJumpsToItsAddress : Prop :=
  (∀ w : Word, w.extractLsb' 12 4 = 0x1#4 → decodeWord w = .jp (fieldNNN w)) ∧
  ∀ (nnn : Addr) (s : State), ∃ t, exec (.jp nnn) s = .next t ∧
    t.pc.toNat = nnn.toNat ∧
    SameRegs [] s t ∧ t.I = s.I ∧ SameStores s t ∧ Reports .success s t

/-- R101. That the run continues with the next word after an underflow is the spec's decision D18. -/
def Obligations.RetPopsIntoPcOrUnderflows : Prop :=
  (∀ w : Word, decodeWord w = .ret ↔ w = 0x00EE) ∧
  ∀ s : State,
    (∀ h : 0 < s.sp.val, ∃ t, exec .ret s = .next t ∧
      t.pc = s.stk[s.sp.val - 1]'(by omega) ∧ t.sp.val = s.sp.val - 1 ∧
      (∀ k : Fin 16, t.stk[k.val] = s.stk[k.val]) ∧
      SameRegs [] s t ∧ t.I = s.I ∧ SameMem s t ∧ SameFb s t ∧ SameRest s t ∧
      Reports .success s t) ∧
    (s.sp.val = 0 → ∃ t, exec .ret s = .next t ∧ OnlyReports .invalidStackOperation s t)

/-- R102. `s.pc` is the address after the call, as the fetch left it. No jump on overflow is the spec's
decision D17. -/
def Obligations.CallPushesPcOrOverflows : Prop :=
  (∀ w : Word, w.extractLsb' 12 4 = 0x2#4 → decodeWord w = .call (fieldNNN w)) ∧
  ∀ (nnn : Addr) (s : State),
    (∀ h : s.sp.val < 16, ∃ t, exec (.call nnn) s = .next t ∧
      t.pc.toNat = nnn.toNat ∧ t.sp.val = s.sp.val + 1 ∧ t.stk[s.sp.val] = s.pc ∧
      (∀ k : Fin 16, k.val ≠ s.sp.val → t.stk[k.val] = s.stk[k.val]) ∧
      SameRegs [] s t ∧ t.I = s.I ∧ SameMem s t ∧ SameFb s t ∧ SameRest s t ∧
      Reports .success s t) ∧
    (s.sp.val = 16 → ∃ t, exec (.call nnn) s = .next t ∧
      OnlyReports .invalidStackOperation s t)

/-- R103 and R104. `s.pc` is the address after the skip instruction. -/
def Obligations.ImmediateSkips : Prop :=
  (∀ w : Word, w.extractLsb' 12 4 = 0x3#4 → decodeWord w = .seImm (fieldX w) (fieldNN w)) ∧
  (∀ w : Word, w.extractLsb' 12 4 = 0x4#4 → decodeWord w = .sneImm (fieldX w) (fieldNN w)) ∧
  ∀ (x : Reg) (nn : Byte) (s : State),
    (∃ t, exec (.seImm x nn) s = .next t ∧
      (s.getV x = nn → t.pc.toNat = (s.pc.toNat + 2) % 65536) ∧ (s.getV x ≠ nn → t.pc = s.pc) ∧
      SameRegs [] s t ∧ t.I = s.I ∧ SameStores s t ∧ Reports .success s t) ∧
    (∃ t, exec (.sneImm x nn) s = .next t ∧
      (s.getV x ≠ nn → t.pc.toNat = (s.pc.toNat + 2) % 65536) ∧ (s.getV x = nn → t.pc = s.pc) ∧
      SameRegs [] s t ∧ t.I = s.I ∧ SameStores s t ∧ Reports .success s t)

/-- R105 and R106. That `n` is ignored is the spec's decision D16. -/
def Obligations.RegisterSkips : Prop :=
  (∀ w : Word, w.extractLsb' 12 4 = 0x5#4 →
    decodeWord w = .seReg (fieldX w) (fieldY w) (fieldN w)) ∧
  (∀ w : Word, w.extractLsb' 12 4 = 0x9#4 →
    decodeWord w = .sneReg (fieldX w) (fieldY w) (fieldN w)) ∧
  ∀ (x y : Reg) (n : Nibble) (s : State),
    (∃ t, exec (.seReg x y n) s = .next t ∧
      (s.getV x = s.getV y → t.pc.toNat = (s.pc.toNat + 2) % 65536) ∧
      (s.getV x ≠ s.getV y → t.pc = s.pc) ∧
      SameRegs [] s t ∧ t.I = s.I ∧ SameStores s t ∧ Reports .success s t) ∧
    (∃ t, exec (.sneReg x y n) s = .next t ∧
      (s.getV x ≠ s.getV y → t.pc.toNat = (s.pc.toNat + 2) % 65536) ∧
      (s.getV x = s.getV y → t.pc = s.pc) ∧
      SameRegs [] s t ∧ t.I = s.I ∧ SameStores s t ∧ Reports .success s t)

/-- R110: always V0. That the sum is not reduced to 12 bits is the spec's decision D6. -/
def Obligations.JpV0AddsV0 : Prop :=
  (∀ w : Word, w.extractLsb' 12 4 = 0xB#4 → decodeWord w = .jpV0 (fieldNNN w)) ∧
  ∀ (nnn : Addr) (s : State), ∃ t, exec (.jpV0 nnn) s = .next t ∧
    t.pc.toNat = nnn.toNat + (s.getV 0).toNat ∧
    SameRegs [] s t ∧ t.I = s.I ∧ SameStores s t ∧ Reports .success s t

/-- R28, R29 and R30: `Push`, `Pop` and `Peek`. -/
def Obligations.PushPopPeekFollowTheirRules : Prop :=
  ∀ (s : State) (a : Word),
    (∀ h : s.sp.val < 16, ∃ t, s.push a = .ok t ∧ t.sp.val = s.sp.val + 1 ∧
      t.stk[s.sp.val] = a ∧ (∀ k : Fin 16, k.val ≠ s.sp.val → t.stk[k.val] = s.stk[k.val]) ∧
      t = { s with sp := t.sp, stk := t.stk }) ∧
    (s.sp.val = 16 → s.push a = .error .stackOverflow) ∧
    (∀ h : 0 < s.sp.val,
      (∃ t, s.pop = .ok (s.stk[s.sp.val - 1]'(by omega), t) ∧ t.sp.val = s.sp.val - 1 ∧
        t = { s with sp := t.sp }) ∧
      s.peek = .ok (s.stk[s.sp.val - 1]'(by omega))) ∧
    (s.sp.val = 0 → s.pop = .error .stackUnderflow ∧ s.peek = .error .stackUnderflow)

/-- The LIFO law of 95_test_vectors.md E2 (R28, R29): from any depth, as many pushes as fit succeed,
and as many pops give the addresses in reverse order and the depth there was; one more push fails. -/
def Obligations.PushesPopInReverse : Prop :=
  ∀ (as : List Word) (s : State), s.sp.val + as.length ≤ 16 →
    ∃ t, pushAll as s = .ok t ∧ t.sp.val = s.sp.val + as.length ∧
      (∃ u, popMany as.length t = .ok (as.reverse, u) ∧ u.sp = s.sp) ∧
      (s.sp.val + as.length = 16 → ∀ a, t.push a = .error .stackOverflow)

/-- A call's return address is where the matching `00EE` goes (R101, R102, R108), whatever the
subroutine did to everything but the stack. -/
def Obligations.ReturnGoesAfterTheCall : Prop :=
  ∀ (nnn : Addr) (s : State), s.sp.val < 16 → ∃ t, exec (.call nnn) s = .next t ∧
    ∀ u : State, u.sp = t.sp → u.stk = t.stk →
      ∃ v, exec .ret u = .next v ∧ v.pc = s.pc ∧ v.sp = s.sp

/-! ### Register loads and the ALU -/

/-- R121. -/
def Obligations.LdImmLoadsTheByte : Prop :=
  (∀ w : Word, w.extractLsb' 12 4 = 0x6#4 → decodeWord w = .ldImm (fieldX w) (fieldNN w)) ∧
  ∀ (x : Reg) (nn : Byte) (s : State), ∃ t, exec (.ldImm x nn) s = .next t ∧
    t.getV x = nn ∧
    SameRegs [x] s t ∧ t.pc = s.pc ∧ t.I = s.I ∧ SameStores s t ∧ Reports .success s t

/-- R122: no carry into VF. -/
def Obligations.AddImmWrapsWithoutFlag : Prop :=
  (∀ w : Word, w.extractLsb' 12 4 = 0x7#4 → decodeWord w = .addImm (fieldX w) (fieldNN w)) ∧
  ∀ (x : Reg) (nn : Byte) (s : State), ∃ t, exec (.addImm x nn) s = .next t ∧
    (t.getV x).toNat = ((s.getV x).toNat + nn.toNat) % 256 ∧
    SameRegs [x] s t ∧ t.pc = s.pc ∧ t.I = s.I ∧ SameStores s t ∧ Reports .success s t

/-- R123. The sub-opcode is the spec's decision D8 and "Flags: none" its D12. -/
def Obligations.LdRegCopies : Prop :=
  (∀ w : Word, w.extractLsb' 12 4 = 0x8#4 → w.extractLsb' 0 4 = 0x0#4 →
    decodeWord w = .ldReg (fieldX w) (fieldY w)) ∧
  ∀ (x y : Reg) (s : State), ∃ t, exec (.ldReg x y) s = .next t ∧
    t.getV x = s.getV y ∧
    SameRegs [x] s t ∧ t.pc = s.pc ∧ t.I = s.I ∧ SameStores s t ∧ Reports .success s t

/-- R124, R125 and R126: bit by bit. The sub-opcodes are the spec's decision D8, and that VF is not
written unless `x = 15` its D12. -/
def Obligations.LogicOpsLeaveVFAlone : Prop :=
  (∀ w : Word, w.extractLsb' 12 4 = 0x8#4 →
    (w.extractLsb' 0 4 = 0x1#4 → decodeWord w = .orReg (fieldX w) (fieldY w)) ∧
    (w.extractLsb' 0 4 = 0x2#4 → decodeWord w = .andReg (fieldX w) (fieldY w)) ∧
    (w.extractLsb' 0 4 = 0x3#4 → decodeWord w = .xorReg (fieldX w) (fieldY w))) ∧
  ∀ (x y : Reg) (s : State),
    (∃ t, exec (.orReg x y) s = .next t ∧
      (∀ b, b < 8 → (t.getV x).getLsbD b = ((s.getV x).getLsbD b || (s.getV y).getLsbD b)) ∧
      SameRegs [x] s t ∧ t.pc = s.pc ∧ t.I = s.I ∧ SameStores s t ∧ Reports .success s t) ∧
    (∃ t, exec (.andReg x y) s = .next t ∧
      (∀ b, b < 8 → (t.getV x).getLsbD b = ((s.getV x).getLsbD b && (s.getV y).getLsbD b)) ∧
      SameRegs [x] s t ∧ t.pc = s.pc ∧ t.I = s.I ∧ SameStores s t ∧ Reports .success s t) ∧
    (∃ t, exec (.xorReg x y) s = .next t ∧
      (∀ b, b < 8 → (t.getV x).getLsbD b = ((s.getV x).getLsbD b ^^ (s.getV y).getLsbD b)) ∧
      SameRegs [x] s t ∧ t.pc = s.pc ∧ t.I = s.I ∧ SameStores s t ∧ Reports .success s t)

/-- R127. The sub-opcode is the spec's decision D8, and that the carry is written last (with `x = 15`
it replaces the sum) its D11. -/
def Obligations.AddRegSetsCarry : Prop :=
  (∀ w : Word, w.extractLsb' 12 4 = 0x8#4 → w.extractLsb' 0 4 = 0x4#4 →
    decodeWord w = .addReg (fieldX w) (fieldY w)) ∧
  ∀ (x y : Reg) (s : State), ∃ t, exec (.addReg x y) s = .next t ∧
    (x ≠ vf → (t.getV x).toNat = ((s.getV x).toNat + (s.getV y).toNat) % 256) ∧
    (255 < (s.getV x).toNat + (s.getV y).toNat → t.getV vf = 1) ∧
    ((s.getV x).toNat + (s.getV y).toNat ≤ 255 → t.getV vf = 0) ∧
    SameRegs [x, vf] s t ∧ t.pc = s.pc ∧ t.I = s.I ∧ SameStores s t ∧ Reports .success s t

/-- R128 and R130: VF the negation of the borrow. The operand orders are the spec's decision D9, the
sub-opcodes its D8, the flag written last its D11. -/
def Obligations.SubtractsSetNotBorrow : Prop :=
  (∀ w : Word, w.extractLsb' 12 4 = 0x8#4 →
    (w.extractLsb' 0 4 = 0x5#4 → decodeWord w = .sub (fieldX w) (fieldY w)) ∧
    (w.extractLsb' 0 4 = 0x7#4 → decodeWord w = .subn (fieldX w) (fieldY w))) ∧
  ∀ (x y : Reg) (s : State),
    (∃ t, exec (.sub x y) s = .next t ∧
      (x ≠ vf → (t.getV x).toNat = (256 + (s.getV x).toNat - (s.getV y).toNat) % 256) ∧
      ((s.getV y).toNat ≤ (s.getV x).toNat → t.getV vf = 1) ∧
      ((s.getV x).toNat < (s.getV y).toNat → t.getV vf = 0) ∧
      SameRegs [x, vf] s t ∧ t.pc = s.pc ∧ t.I = s.I ∧ SameStores s t ∧ Reports .success s t) ∧
    (∃ t, exec (.subn x y) s = .next t ∧
      (x ≠ vf → (t.getV x).toNat = (256 + (s.getV y).toNat - (s.getV x).toNat) % 256) ∧
      ((s.getV x).toNat ≤ (s.getV y).toNat → t.getV vf = 1) ∧
      ((s.getV y).toNat < (s.getV x).toNat → t.getV vf = 0) ∧
      SameRegs [x, vf] s t ∧ t.pc = s.pc ∧ t.I = s.I ∧ SameStores s t ∧ Reports .success s t)

/-- R129 and R131, under both settings of `SHIFT_SOURCE` (the spec's decision D10; the sub-opcodes are
its D8, the flag written last its D11). -/
def Obligations.ShiftsSetTheBitShiftedOut : Prop :=
  (∀ w : Word, w.extractLsb' 12 4 = 0x8#4 →
    (w.extractLsb' 0 4 = 0x6#4 → decodeWord w = .shr (fieldX w) (fieldY w)) ∧
    (w.extractLsb' 0 4 = 0xE#4 → decodeWord w = .shl (fieldX w) (fieldY w))) ∧
  ∀ (x y : Reg) (s : State) (a : Byte),
    ((s.cfg.shiftSource = .vx ∧ a = s.getV x) ∨ (s.cfg.shiftSource = .vy ∧ a = s.getV y)) →
    (∃ t, exec (.shr x y) s = .next t ∧
      (x ≠ vf → (t.getV x).toNat = a.toNat / 2) ∧ (t.getV vf).toNat = a.toNat % 2 ∧
      SameRegs [x, vf] s t ∧ t.pc = s.pc ∧ t.I = s.I ∧ SameStores s t ∧ Reports .success s t) ∧
    (∃ t, exec (.shl x y) s = .next t ∧
      (x ≠ vf → (t.getV x).toNat = a.toNat * 2 % 256) ∧ (t.getV vf).toNat = a.toNat / 128 ∧
      SameRegs [x, vf] s t ∧ t.pc = s.pc ∧ t.I = s.I ∧ SameStores s t ∧ Reports .success s t)

/-- R132: whatever byte the host supplies with the step (the byte as an input of the step is the spec's
decision D20, log entry 2). -/
def Obligations.RndMasksTheSuppliedByte : Prop :=
  (∀ w : Word, w.extractLsb' 12 4 = 0xC#4 → decodeWord w = .rnd (fieldX w) (fieldNN w)) ∧
  ∀ (x : Reg) (nn rnd : Byte) (s : State), ∃ t, exec (.rnd x nn) (s.withRnd rnd) = .next t ∧
    (∀ b, b < 8 → (t.getV x).getLsbD b = (rnd.getLsbD b && nn.getLsbD b)) ∧
    SameRegs [x] s t ∧ t.pc = s.pc ∧ t.I = s.I ∧ SameStack s t ∧ SameMem s t ∧ SameFb s t ∧
    SameRest (s.withRnd rnd) t ∧ Reports .success s t

/-! ### Index register and memory -/

/-- R151. -/
def Obligations.LdILoadsTheAddress : Prop :=
  (∀ w : Word, w.extractLsb' 12 4 = 0xA#4 → decodeWord w = .ldI (fieldNNN w)) ∧
  ∀ (nnn : Addr) (s : State), ∃ t, exec (.ldI nnn) s = .next t ∧
    t.I.toNat = nnn.toNat ∧
    SameRegs [] s t ∧ t.pc = s.pc ∧ SameStores s t ∧ Reports .success s t

/-- R152: modulo 4096, VF written with 1 when the sum passes 0xFFF; that it is not written otherwise is
the spec's decision D13. -/
def Obligations.AddIWrapsAt4096 : Prop :=
  (∀ w : Word, w.extractLsb' 12 4 = 0xF#4 → w.extractLsb' 0 8 = 0x1E#8 →
    decodeWord w = .addI (fieldX w)) ∧
  ∀ (x : Reg) (s : State), ∃ t, exec (.addI x) s = .next t ∧
    t.I.toNat = (s.I.toNat + (s.getV x).toNat) % 4096 ∧
    (0xFFF < s.I.toNat + (s.getV x).toNat → t.getV vf = 1) ∧
    (s.I.toNat + (s.getV x).toNat ≤ 0xFFF → t.getV vf = s.getV vf) ∧
    SameRegs [vf] s t ∧ t.pc = s.pc ∧ SameStores s t ∧ Reports .success s t

/-- R153, for every legal `FONT_BASE`. -/
def Obligations.LdFPointsAtTheGlyph : Prop :=
  (∀ w : Word, w.extractLsb' 12 4 = 0xF#4 → w.extractLsb' 0 8 = 0x29#8 →
    decodeWord w = .ldF (fieldX w)) ∧
  ∀ (x : Reg) (s : State), s.cfg.Legal → ∃ t, exec (.ldF x) s = .next t ∧
    t.I.toNat = s.cfg.fontBase + (s.getV x).toNat % 16 * 5 ∧
    SameRegs [] s t ∧ t.pc = s.pc ∧ SameStores s t ∧ Reports .success s t

/-- R154: the three digits, most significant first, at `ea(I)`, `ea(I + 1)`, `ea(I + 2)`; or, when an
address is refused, `InvalidMemoryAccess` and no digit (the spec's decision D30). `I` unchanged is its D31. -/
def Obligations.LdBStoresThreeDigits : Prop :=
  (∀ w : Word, w.extractLsb' 12 4 = 0xF#4 → w.extractLsb' 0 8 = 0x33#8 →
    decodeWord w = .ldB (fieldX w)) ∧
  ∀ (x : Reg) (s : State),
    (WritesAllowed s 3 → ∃ t, exec (.ldB x) s = .next t ∧
      (∀ k a : Nat, k < 3 → ea s.cfg (s.indexAddr k) = some a →
        (WriteLands s a →
          (t.byteAt a).toNat = (s.getV x).toNat / 10 ^ (2 - k) % 10) ∧
        (¬ WriteLands s a → t.byteAt a = s.byteAt a)) ∧
      SameMemOutside (BlockAddr s 3) s t ∧
      SameRegs [] s t ∧ t.pc = s.pc ∧ t.I = s.I ∧ SameStack s t ∧ SameFb s t ∧ SameRest s t ∧
      Reports .success s t) ∧
    (¬ WritesAllowed s 3 → ∃ t, exec (.ldB x) s = .next t ∧ OnlyReports .invalidMemoryAccess s t)

/-- R155 and R156: V0 to VX at `ea(I), ..., ea(I + x)`, `I` as `LDST_I_MODE` says (the spec's decision
D14); or, when an address is refused, `InvalidMemoryAccess` and nothing stored (R50, the spec's decision
D30, log entry 14). -/
def Obligations.StRegsStoresV0ToVX : Prop :=
  (∀ w : Word, w.extractLsb' 12 4 = 0xF#4 → w.extractLsb' 0 8 = 0x55#8 →
    decodeWord w = .stRegs (fieldX w)) ∧
  ∀ (x : Reg) (s : State),
    (WritesAllowed s (x.val + 1) → ∃ t, exec (.stRegs x) s = .next t ∧
      (∀ (k : Reg) (a : Nat), k ≤ x → ea s.cfg (s.indexAddr k.val) = some a →
        (WriteLands s a → t.byteAt a = s.getV k) ∧
        (¬ WriteLands s a → t.byteAt a = s.byteAt a)) ∧
      SameMemOutside (BlockAddr s (x.val + 1)) s t ∧
      (s.cfg.ldstIMode = .keep → t.I = s.I) ∧
      (s.cfg.ldstIMode = .advance → t.I.toNat = (s.I.toNat + x.val + 1) % 4096) ∧
      SameRegs [] s t ∧ t.pc = s.pc ∧ SameStack s t ∧ SameFb s t ∧ SameRest s t ∧
      Reports .success s t) ∧
    (¬ WritesAllowed s (x.val + 1) → ∃ t, exec (.stRegs x) s = .next t ∧
      OnlyReports .invalidMemoryAccess s t)

/-- R155 and R157: V0 to VX from `ea(I), ..., ea(I + x)`, `I` as `LDST_I_MODE` says (the spec's decision
D14); or, when an address is refused, `InvalidMemoryAccess` and nothing loaded (R50, the spec's decision
D30, log entry 14). -/
def Obligations.LdRegsLoadsV0ToVX : Prop :=
  (∀ w : Word, w.extractLsb' 12 4 = 0xF#4 → w.extractLsb' 0 8 = 0x65#8 →
    decodeWord w = .ldRegs (fieldX w)) ∧
  ∀ (x : Reg) (s : State),
    (ReadsAllowed s (x.val + 1) → ∃ t, exec (.ldRegs x) s = .next t ∧
      (∀ k : Reg, k ≤ x → ∃ a, ea s.cfg (s.indexAddr k.val) = some a ∧ t.getV k = s.byteAt a) ∧
      (∀ k : Reg, x < k → t.getV k = s.getV k) ∧
      (s.cfg.ldstIMode = .keep → t.I = s.I) ∧
      (s.cfg.ldstIMode = .advance → t.I.toNat = (s.I.toNat + x.val + 1) % 4096) ∧
      t.pc = s.pc ∧ SameStores s t ∧ Reports .success s t) ∧
    (¬ ReadsAllowed s (x.val + 1) → ∃ t, exec (.ldRegs x) s = .next t ∧
      OnlyReports .invalidMemoryAccess s t)

/-- R42 and R43: `ea`, the byte read and the big-endian word read, under both policies (the policies are
the spec's decision D5). -/
def Obligations.ReadsResolveThroughEa : Prop :=
  ∀ (s : State) (a : Nat),
    (s.cfg.addrPolicy = .wrap → ea s.cfg a = some (a % 4096) ∧
      s.memRead a = some (s.byteAt (a % 4096)) ∧
      ∃ w, s.memReadWord a = some w ∧
        w.toNat = 256 * (s.byteAt (a % 4096)).toNat + (s.byteAt ((a + 1) % 4096)).toNat) ∧
    (s.cfg.addrPolicy = .fault →
      (a ≤ 0xFFF → ea s.cfg a = some a ∧ s.memRead a = some (s.byteAt a)) ∧
      (0xFFF < a → ea s.cfg a = none ∧ s.memRead a = none) ∧
      (a + 1 ≤ 0xFFF → ∃ w, s.memReadWord a = some w ∧
        w.toNat = 256 * (s.byteAt a).toNat + (s.byteAt (a + 1)).toNat) ∧
      (0xFFF < a + 1 → s.memReadWord a = none))

/-- R44: a write changes exactly one byte, is dropped, or is refused, as `FONT_WRITE` says. -/
def Obligations.WriteChangesOneByte : Prop :=
  ∀ (s : State) (a : Nat) (b : Byte),
    (ea s.cfg a = none → s.memWrite a b = none) ∧
    ∀ e, ea s.cfg a = some e →
      (Config.inFont s.cfg e = false ∨ s.cfg.fontWrite = .allow →
        ∃ t, s.memWrite a b = some t ∧ t.byteAt e = b ∧
          (∀ x, x ≠ e → t.byteAt x = s.byteAt x) ∧ t = { s with mem := t.mem }) ∧
      (Config.inFont s.cfg e = true → s.cfg.fontWrite = .ignore → s.memWrite a b = some s) ∧
      (Config.inFont s.cfg e = true → s.cfg.fontWrite = .fault → s.memWrite a b = none)

/-- R58 and R50: a span is read byte by byte through `ea` (the spec's decision D5), or refused as a whole
(its D30). -/
def Obligations.SpansAreByteWise : Prop :=
  ∀ (s : State) (a n : Nat),
    (s.cfg.addrPolicy = .wrap ∨ (∀ k, k < n → a + k ≤ 0xFFF) →
      ∃ bs, s.spanRead a n = some bs ∧ bs.length = n ∧
        ∀ k, k < n → bs[k]? = some (s.byteAt ((a + k) % 4096))) ∧
    (s.cfg.addrPolicy = .fault → (∃ k, k < n ∧ 0xFFF < a + k) → s.spanRead a n = none)

/-- Memory as data: canonical memories with the same bytes are equal (a property of the model's
representation, log entry 6). -/
def Obligations.CanonicalMemoryIsDeterminedByItsBytes : Prop :=
  ∀ (c : Config) (m m' : Memory), Memory.wf c m → Memory.wf c m' →
    (∀ a, a < 4096 → Memory.read c m a = Memory.read c m' a) → m = m'

/-! ### Framebuffer -/

/-- R170 and R173. -/
def Obligations.ClsClearsEveryPixel : Prop :=
  (∀ w : Word, decodeWord w = .cls ↔ w = 0x00E0) ∧
  ∀ s : State, ∃ t, exec .cls s = .next t ∧
    (∀ x y, t.pixel x y = false) ∧
    SameRegs [] s t ∧ t.pc = s.pc ∧ t.I = s.I ∧ SameStack s t ∧ SameMem s t ∧ SameRest s t ∧
    Reports .success s t

/-- R171 and R172: the rows read at `ea(I), ..., ea(I + n - 1)`, the covered pixels flipped, every other
pixel left, VF the collision flag, the origin taken from the registers as they were; or, when an address
is refused, `InvalidMemoryAccess` and nothing drawn. VF = 0 without a collision, and for `n = 0`, is the
spec's decision D15. -/
def Obligations.DrwXorsTheSprite : Prop :=
  (∀ w : Word, w.extractLsb' 12 4 = 0xD#4 →
    decodeWord w = .drw (fieldX w) (fieldY w) (fieldN w)) ∧
  ∀ (x y : Reg) (n : Nibble) (s : State),
    (ReadsAllowed s n.toNat → ∃ t rows, exec (.drw x y n) s = .next t ∧
      rows.length = n.toNat ∧
      (∀ k, k < n.toNat → ∃ a, ea s.cfg (s.indexAddr k) = some a ∧ rows[k]? = some (s.byteAt a)) ∧
      (∀ px py, SpriteCovers s.cfg (s.getV x) (s.getV y) rows px py →
        t.pixel px py = !s.pixel px py) ∧
      (∀ px py, ¬ SpriteCovers s.cfg (s.getV x) (s.getV y) rows px py →
        t.pixel px py = s.pixel px py) ∧
      ((∃ px py, SpriteCovers s.cfg (s.getV x) (s.getV y) rows px py ∧ s.pixel px py = true) →
        t.getV vf = 1) ∧
      ((∀ px py, SpriteCovers s.cfg (s.getV x) (s.getV y) rows px py → s.pixel px py = false) →
        t.getV vf = 0) ∧
      SameRegs [vf] s t ∧ t.pc = s.pc ∧ t.I = s.I ∧ SameStack s t ∧ SameMem s t ∧ SameRest s t ∧
      Reports .success s t) ∧
    (¬ ReadsAllowed s n.toNat → ∃ t, exec (.drw x y n) s = .next t ∧
      OnlyReports .invalidMemoryAccess s t)

/-- R175, self-inverse, in the precise form the spec derives from R171: the second of two equal draws
restores every pixel, and collides exactly when the first turned a pixel on; on a canonical framebuffer
(log entry 8) the two draws give the same data back. -/
def Obligations.DrawingTwiceRestores : Prop :=
  ∀ (c : Config) (cx cy : Byte) (rows : List Byte) (f : Framebuffer),
    let once := drawSprite c cx cy rows f
    let twice := drawSprite c cx cy rows once.1
    (∀ x y, Framebuffer.get c twice.1 x y = Framebuffer.get c f x y) ∧
    (twice.2 = true ↔ ∃ x y, SpriteCovers c cx cy rows x y ∧ Framebuffer.get c f x y = false) ∧
    (Framebuffer.wf c f → twice.1 = f)

/-! ### Error classes, the step, statuses -/

/-- R85 to R88: the effect of the encodings that are not instructions is to report. -/
def Obligations.ErrorClassesOnlyReport : Prop :=
  ∀ (nnn : Addr) (x y : Reg) (n : Nibble) (nn : Byte) (s : State),
    (∃ t, exec (.errSys nnn) s = .next t ∧ OnlyReports .invalidInstruction s t) ∧
    (∃ t, exec (.errE nnn) s = .next t ∧ OnlyReports .unknownInstruction s t) ∧
    (∃ t, exec (.errAlu x y n) s = .next t ∧ OnlyReports .invalidInstruction s t) ∧
    (∃ t, exec (.errF x nn) s = .next t ∧ OnlyReports .invalidInstruction s t)

/-- A step runs the decoded instruction (R80, R81): in a bootstrapped state (R235, log entry 9), with the
two bytes at `pc` read and decoded to `i`, the step is `exec i` of the state with the word latched (log
entry 3) and `pc` advanced by 2. That then the next input byte stands ready, `rnd` the free byte of the
counter and `draws` one more, is the model's choice (log entry 2). -/
def Obligations.StepRunsTheDecodedInstruction : Prop :=
  ∀ (s u : State) (hi lo : Byte) (i : Instr), s.booted = true →
    s.memRead s.pc.toNat = some hi → s.memRead (s.pc.toNat + 1) = some lo →
    decode [hi, lo] = .ok (i, []) →
    exec i { s with ir := hi ++ lo, pc := s.pc + 2 } = .next u →
    step s = .next { u with rnd := Config.randomByte u.draws, draws := u.draws + 1 }

/-- R81, the failed fetch, in a bootstrapped state: `(InvalidMemoryAccess, 0x0000)`, `pc` unchanged, and
the next step gives the same again (the spec's decision D27; the record is log entry 4). -/
def Obligations.FailedFetchIsReportedAndRepeats : Prop :=
  ∀ s : State, s.booted = true → s.cfg.addrPolicy = .fault → 0xFFF < s.pc.toNat + 1 →
    ∃ t, step s = .next t ∧ t.status = some ⟨.invalidMemoryAccess, 0x0000⟩ ∧
      t.record = ⟨.invalidMemoryAccess, 0x0000⟩ :: s.record ∧
      t.pc = s.pc ∧ SameRegs [] s t ∧ t.I = s.I ∧ SameStack s t ∧ SameMem s t ∧ SameFb s t ∧
      t.cfg = s.cfg ∧
      ∃ u, step t = .next u ∧ u.status = t.status ∧ u.pc = s.pc

/-- R80, R84, R200: from a bootstrapped state every step returns, with one status, whose word is the word
fetched, or 0x0000 after a failed fetch (the spec's decision D27), and the next state can step again;
before the first bootstrap there is no step (R235, the spec's decision D24, log entry 9). -/
def Obligations.EveryStepReturnsOneStatus : Prop :=
  ∀ s : State,
    (s.booted = true → ∃ t k, step s = .next t ∧ t.booted = true ∧
      ((∃ w, s.memReadWord s.pc.toNat = some w ∧ t.status = some ⟨k, w⟩) ∨
       (s.memReadWord s.pc.toNat = none ∧ k = .invalidMemoryAccess ∧
        t.status = some ⟨k, 0x0000⟩))) ∧
    (s.booted = false → step s = .refused .notBootstrapped)

/-- R89 and R205: a step that returns a kind other than Success has changed nothing but `pc`, by the
fetch's advance, and not even that after a failed fetch. -/
def Obligations.FailingStepChangesOnlyPc : Prop :=
  ∀ (s t : State) (c : CycleStatus), step s = .next t → t.status = some c → c.kind ≠ .success →
    t.pc = (if (s.memReadWord s.pc.toNat).isSome then s.pc + 2 else s.pc) ∧
    SameRegs [] s t ∧ t.I = s.I ∧ SameStack s t ∧ SameMem s t ∧ SameFb s t ∧ t.cfg = s.cfg

/-- R201 and R202: which words raise the two decode errors. The unassigned sub-opcodes of category 0x8
are what the spec's decision D8 leaves (R66, log entry 13). -/
def Obligations.DecodeErrorsComeFromErrorClasses : Prop :=
  ∀ s t : State, step s = .next t →
    ((∃ w, t.status = some ⟨.unknownInstruction, w⟩) ↔
      ∃ w, s.memReadWord s.pc.toNat = some w ∧ w.toNat / 4096 = 0xE) ∧
    ((∃ w, t.status = some ⟨.invalidInstruction, w⟩) ↔
      ∃ w, s.memReadWord s.pc.toNat = some w ∧
        ((w.toNat < 0x1000 ∧ w ≠ 0x00E0 ∧ w ≠ 0x00EE) ∨
         (w.toNat / 4096 = 0x8 ∧ w.toNat % 16 ∈ [0x8, 0x9, 0xA, 0xB, 0xC, 0xD, 0xF]) ∨
         (w.toNat / 4096 = 0xF ∧ w.toNat % 256 ∉ [0x1E, 0x29, 0x33, 0x55, 0x65])))

/-- R203: exactly when a step returns `InvalidMemoryAccess`; never under the default policies. The
policies are the spec's decisions D5 and D21. -/
def Obligations.InvalidMemoryAccessOnlyUnderFaultPolicies : Prop :=
  ∀ s t : State, step s = .next t →
    ((∃ w, t.status = some ⟨.invalidMemoryAccess, w⟩) ↔
      (s.cfg.addrPolicy = .fault ∧ 0xFFF < s.pc.toNat + 1) ∨
      (∃ x y n, s.instrAt = some (.drw x y n) ∧ ¬ ReadsAllowed s n.toNat) ∨
      (∃ x, s.instrAt = some (.ldB x) ∧ ¬ WritesAllowed s 3) ∨
      (∃ x, s.instrAt = some (.stRegs x) ∧ ¬ WritesAllowed s (x.val + 1)) ∨
      (∃ x, s.instrAt = some (.ldRegs x) ∧ ¬ ReadsAllowed s (x.val + 1))) ∧
    (s.cfg.addrPolicy = .wrap → s.cfg.fontWrite = .allow →
      ∀ w, t.status ≠ some ⟨.invalidMemoryAccess, w⟩)

/-- R204: exactly when a step returns `InvalidStackOperation`, and what the stack's own failures map to. -/
def Obligations.InvalidStackOperationIsOverflowOrUnderflow : Prop :=
  (∀ e : StackFailure, e.kind = .invalidStackOperation) ∧
  ∀ s t : State, step s = .next t →
    ((∃ w, t.status = some ⟨.invalidStackOperation, w⟩) ↔
      (s.instrAt = some .ret ∧ s.sp.val = 0) ∨
      (∃ nnn, s.instrAt = some (.call nnn) ∧ s.sp.val = 16))

/-- R207: the record of non-Success statuses is kept by every step and grows by exactly the status
returned. The record is model bookkeeping (the spec's decision D19, log entry 4). -/
def Obligations.ErrorRecordIsSticky : Prop :=
  ∀ (s t : State) (c : CycleStatus), step s = .next t → t.status = some c →
    t.record = if c.kind = .success then s.record else c :: s.record

/-- R216, which the spec derives from R80 and R100: a bootstrapped state whose word at `pc` is `1NNN` with
`nnn = pc` is a fixed point of the step, but for the step's own output and input (log entries 2 and 3). -/
def Obligations.HaltIdiomIsAFixedPoint : Prop :=
  ∀ (s : State) (w : Word) (nnn : Addr), s.booted = true →
    s.memReadWord s.pc.toNat = some w → decodeWord w = .jp nnn → s.pc.toNat = nnn.toNat →
    ∃ t, step s = .next t ∧ t.instrAt = s.instrAt ∧
      t = { s with ir := w, status := some ⟨.success, w⟩, rnd := t.rnd, draws := t.draws }

/-- R24, a table the spec derives: `pc` after each instruction. -/
def Obligations.PcFollowsTheTable : Prop :=
  ∀ (s t : State) (i : Instr), s.instrAt = some i → step s = .next t → t.pc = pcAfter i s

/-- R31: only `2NNN` and `00EE` change the stack. -/
def Obligations.OnlyCallAndRetChangeTheStack : Prop :=
  ∀ s t : State, step s = .next t → s.instrAt ≠ some .ret →
    (∀ nnn, s.instrAt ≠ some (.call nnn)) → SameStack s t

/-- R175 and R40: the framebuffer changes only through `DXYN` and `00E0`, memory only through `FX33`
and `FX55`. -/
def Obligations.OnlyTheirInstructionsChangePixelsAndMemory : Prop :=
  ∀ s t : State, step s = .next t →
    (s.instrAt ≠ some .cls → (∀ x y n, s.instrAt ≠ some (.drw x y n)) → SameFb s t) ∧
    ((∀ x, s.instrAt ≠ some (.ldB x)) → (∀ x, s.instrAt ≠ some (.stRegs x)) → SameMem s t)

/-- R21, a table the spec derives: an instruction that changes VF is one of the flag writers or names VF
as its destination. -/
def Obligations.OnlyFlagWritersAndNamersChangeVF : Prop :=
  ∀ (s t : State) (i : Instr), s.instrAt = some i → step s = .next t →
    t.getV vf ≠ s.getV vf →
    (∃ x y, i = .addReg x y ∨ i = .sub x y ∨ i = .shr x y ∨ i = .subn x y ∨ i = .shl x y) ∨
    (∃ x y n, i = .drw x y n) ∨ (∃ x, i = .addI x) ∨
    (∃ nn, i = .ldImm vf nn ∨ i = .addImm vf nn ∨ i = .rnd vf nn) ∨
    (∃ y, i = .ldReg vf y ∨ i = .orReg vf y ∨ i = .andReg vf y ∨ i = .xorReg vf y) ∨
    i = .ldRegs vf

/-- R27, which the spec derives: the writers of `I`, each of which leaves a 12-bit value. -/
def Obligations.OnlyIndexWritersChangeI : Prop :=
  ∀ (s t : State) (i : Instr), s.instrAt = some i → step s = .next t → t.I ≠ s.I →
    ((∃ nnn, i = .ldI nnn) ∨ (∃ x, i = .addI x) ∨ (∃ x, i = .ldF x) ∨
      (s.cfg.ldstIMode = .advance ∧ ∃ x, i = .stRegs x ∨ i = .ldRegs x)) ∧
    (s.cfg.Legal → t.I.toNat ≤ 0xFFF)

/-- R13: only `CXNN` reads the step's input byte (the spec's decision D20, log entry 2); any other step is
the same whatever byte the host supplies. -/
def Obligations.OnlyRndReadsTheInputByte : Prop :=
  ∀ (s : State) (a b : Byte), (∀ x nn, s.instrAt ≠ some (.rnd x nn)) →
    step (s.withRnd a) = step (s.withRnd b)

/-- R32, which the spec derives: what a slot at or above the depth holds never reaches a register, `pc`,
memory, the framebuffer or a status: from two states that differ only there, steps give two such states. -/
def Obligations.DeadStackSlotsAreUnobservable : Prop :=
  ∀ s s' t : State, SameButDeadSlots s s' → step s = .next t →
    ∃ t', step s' = .next t' ∧ SameButDeadSlots t t'

/-- R56 (the spec's decision D26): a byte written by an instruction is seen by the fetch of the very next
one. -/
def Obligations.NextFetchSeesTheStore : Prop :=
  ∀ (s t : State) (x : Reg), 1 ≤ x.val → s.cfg.addrPolicy = .wrap → s.cfg.fontWrite = .allow →
    s.I.toNat % 4096 = s.pc.toNat % 4096 → exec (.stRegs x) s = .next t →
    ∃ u, fetch t.nextInput = some u ∧ u.ir = s.getV 0 ++ s.getV 1

/-! ### Boot -/

/-- R38 and R230: every piece of state after `bootstrap(rom)` of a ROM that fits. The stack slots are the
spec's decision D23. Where the ROM overlaps the font region, the ROM stands, copied last (log entry 11). -/
def Obligations.BootstrapGivesTheResetTable : Prop :=
  ∀ (rom : List Byte) (s : State), s.cfg.Legal → rom.length ≤ 4096 - s.cfg.progBase →
    ∃ t, bootstrap rom s = (.ok, t) ∧
      (∀ x, t.getV x = 0) ∧ t.pc.toNat = s.cfg.progBase ∧ t.I = 0 ∧ t.sp.val = 0 ∧
      (∀ k : Fin 16, t.stk[k.val] = 0) ∧ (∀ x y, t.pixel x y = false) ∧ t.cfg = s.cfg ∧
      (∀ k b, rom[k]? = some b → t.byteAt (s.cfg.progBase + k) = b) ∧
      (∀ k : Fin 80, (s.cfg.fontBase + k.val < s.cfg.progBase ∨
          s.cfg.progBase + rom.length ≤ s.cfg.fontBase + k.val) →
        t.byteAt (s.cfg.fontBase + k.val) = s.cfg.fontData[k.val]) ∧
      (∀ a, (a < s.cfg.fontBase ∨ s.cfg.fontBase + 80 ≤ a) →
        (a < s.cfg.progBase ∨ s.cfg.progBase + rom.length ≤ a) → t.byteAt a = 0)

/-- R233 and R52 (the spec's decision D22): a ROM that does not fit gives `CapacityError` and no program
byte; the first step then reports `InvalidInstruction` on the word 0x0000. -/
def Obligations.OversizedRomGivesCapacityError : Prop :=
  ∀ (rom : List Byte) (s : State), s.cfg.Legal → 4096 - s.cfg.progBase < rom.length →
    ∃ t, bootstrap rom s = (.capacityError, t) ∧ bootstrap [] s = (.ok, t) ∧
      ∃ u, step t = .next u ∧ u.status = some ⟨.invalidInstruction, 0x0000⟩ ∧
        u.pc.toNat = s.cfg.progBase + 2

/-- R232: the state after `bootstrap(rom)` depends on the ROM and the parameters alone, and calling it twice
is calling it once. The equality is of whole states, so it also covers what is no state of the core and the
model's own choice: the pending input byte and its counter, which stay (log entry 2), the last word and
status, which bootstrap clears (log entry 3), the record, which it empties (log entry 4), and the mark that
a bootstrap has run (log entry 9). -/
def Obligations.BootstrapIsIdempotent : Prop :=
  ∀ (rom : List Byte) (s s' : State), s'.cfg = s.cfg →
    (bootstrap rom s').1 = (bootstrap rom s).1 ∧
    (bootstrap rom s').2 = { (bootstrap rom s).2 with rnd := s'.rnd, draws := s'.draws } ∧
    bootstrap rom (bootstrap rom s).2 = bootstrap rom s

/-- The reset state is the bootstrap of an empty ROM under the default parameters (R230). That reset takes
an empty ROM (log entry 10) and these parameters (log entry 12) is the model's choice, and so are its input
byte, last word and status, record and mark (log entries 2, 3, 4 and 9). -/
def Obligations.ResetIsTheEmptyBootstrap : Prop :=
  bootstrap [] State.reset = (.ok, State.reset)

/-! ### The invariant -/

/-- Every step keeps the invariant: legal parameters, canonical memory and framebuffer (log entries 6 and
8), `I` a 12-bit address (R27), a record of non-Success statuses only (R207, log entry 4), a bootstrap
behind the state (R235, log entry 9). -/
def Obligations.EveryStepKeepsTheInvariant : Prop :=
  ∀ s t : State, s.Inv → step s = .next t → t.Inv

/-- The reset state meets the invariant: its parameters (the defaults, log entry 12) are legal, its memory
and framebuffer (of the empty ROM, log entry 10) canonical (log entries 6 and 8), its `I` a 12-bit address,
no recorded kind is Success (log entry 4), and it is bootstrapped (log entry 9). -/
def Obligations.ResetMeetsTheInvariant : Prop := State.reset.Inv

/-- Every bootstrap under legal parameters meets the invariant, whatever came before, and so does every
state that it reaches by steps: these are the start states of claims (R235, the spec's decision D24, log
entry 9), and the reset state is one. The canonical forms in the invariant are the model's (log entries 6
and 8), and so is the record (log entry 4). -/
def Obligations.BootstrapMeetsTheInvariant : Prop :=
  (∀ (rom : List Byte) (s : State), s.cfg.Legal → (bootstrap rom s).2.Inv) ∧
  State.reset.Reached ∧
  ∀ s : State, s.Reached → s.Inv
end

