-- ==== Sys2Proof/Laws/Cells.lean ====
section
/-! SUPPORT. The sparse cells that memory and the framebuffer are made of: read after write, and the
canonical form. -/

namespace Sys2Proof.Machine.Cells

variable {β : Type} (d : Nat → β)

@[simp] theorem get_nil (a : Nat) : get d [] a = d a := rfl

theorem get_erase (m : List (Nat × β)) (a b : Nat) :
    get d (erase a m) b = if a = b then d b else get d m b := by
  induction m with
  | nil => simp [erase]
  | cons p m ih =>
    obtain ⟨k, w⟩ := p
    by_cases h : k = a
    · by_cases hb : a = b <;> simp_all [erase, get]
    · by_cases hb : a = b <;> simp_all [erase, get]

theorem get_insert (m : List (Nat × β)) (a b : Nat) (v : β) (h : ∀ p ∈ m, p.1 ≠ a) :
    get d (insert a v m) b = if a = b then v else get d m b := by
  induction m with
  | nil => simp [insert, get]
  | cons p m ih =>
    obtain ⟨k, w⟩ := p
    have ih := ih fun q hq => h q (List.mem_cons_of_mem _ hq)
    have hk : k ≠ a := h (k, w) List.mem_cons_self
    rw [insert]
    split
    · rfl
    · by_cases hb : a = b
      · subst hb; simp [get, hk, ih]
      · simp [get, ih, hb]

theorem mem_erase {m : List (Nat × β)} {a : Nat} {p : Nat × β} :
    p ∈ erase a m ↔ p ∈ m ∧ p.1 ≠ a := by
  induction m with
  | nil => simp [erase]
  | cons q m ih =>
    obtain ⟨k, w⟩ := q
    rw [erase]
    split <;> rename_i hk <;> simp only [List.mem_cons, ih]
    · constructor
      · exact fun h => ⟨.inr h.1, h.2⟩
      · rintro ⟨rfl | h, h2⟩
        · exact absurd hk h2
        · exact ⟨h, h2⟩
    · constructor
      · rintro (rfl | h)
        · exact ⟨.inl rfl, hk⟩
        · exact ⟨.inr h.1, h.2⟩
      · rintro ⟨rfl | h, h2⟩
        · exact .inl rfl
        · exact .inr ⟨h, h2⟩

theorem mem_insert {m : List (Nat × β)} {a : Nat} {v : β} {p : Nat × β} :
    p ∈ insert a v m ↔ p = (a, v) ∨ p ∈ m := by
  induction m with
  | nil => simp [insert]
  | cons q m ih =>
    rw [insert]
    split
    · simp
    · simp only [List.mem_cons, ih]
      tauto

/-- Read after write: the value written at its key, the old value at every other. -/
theorem get_set [DecidableEq β] (m : List (Nat × β)) (a b : Nat) (v : β) :
    get d (set d a v m) b = if a = b then v else get d m b := by
  unfold set
  split
  · rename_i h
    rw [get_erase]
    split <;> simp_all
  · rw [get_insert _ _ _ _ _ fun p hp => (mem_erase.mp hp).2, get_erase]
    split <;> rfl

theorem pairwise_erase {m : List (Nat × β)} (a : Nat)
    (h : m.Pairwise fun p q => p.1 < q.1) : (erase a m).Pairwise fun p q => p.1 < q.1 := by
  induction m with
  | nil => exact h
  | cons p m ih =>
    obtain ⟨k, w⟩ := p
    rw [List.pairwise_cons] at h
    rw [erase]
    split
    · exact ih h.2
    · exact List.pairwise_cons.mpr ⟨fun q hq => h.1 q (mem_erase.mp hq).1, ih h.2⟩

theorem pairwise_insert {m : List (Nat × β)} (a : Nat) (v : β)
    (h : m.Pairwise fun p q => p.1 < q.1) (ha : ∀ p ∈ m, p.1 ≠ a) :
    (insert a v m).Pairwise fun p q => p.1 < q.1 := by
  induction m with
  | nil => simp [insert]
  | cons p m ih =>
    obtain ⟨k, w⟩ := p
    rw [List.pairwise_cons] at h
    have hk : k ≠ a := ha (k, w) List.mem_cons_self
    rw [insert]
    split
    · rename_i hlt
      refine List.pairwise_cons.mpr ⟨fun q hq => ?_, List.pairwise_cons.mpr h⟩
      rcases List.mem_cons.mp hq with rfl | hq
      · exact hlt
      · exact Nat.lt_trans hlt (h.1 q hq)
    · refine List.pairwise_cons.mpr
        ⟨fun q hq => ?_, ih h.2 fun q hq => ha q (List.mem_cons_of_mem _ hq)⟩
      rcases mem_insert.mp hq with rfl | hq
      · show k < a; omega
      · exact h.1 q hq

/-- A write keeps the canonical form. -/
theorem wf_set [DecidableEq β] {m : List (Nat × β)} (a : Nat) (v : β) (h : Wf d m) :
    Wf d (set d a v m) := by
  unfold set
  split
  · exact ⟨pairwise_erase a h.1, fun p hp => h.2 p (mem_erase.mp hp).1⟩
  · rename_i hv
    refine ⟨pairwise_insert a v (pairwise_erase a h.1) fun p hp => (mem_erase.mp hp).2, ?_⟩
    intro p hp
    rcases mem_insert.mp hp with rfl | hp
    · exact hv
    · exact h.2 p (mem_erase.mp hp).1

/-- A write lists no key but its own. -/
theorem mem_set [DecidableEq β] {m : List (Nat × β)} {a : Nat} {v : β} {p : Nat × β}
    (h : p ∈ set d a v m) : p.1 = a ∨ p ∈ m := by
  unfold set at h
  split at h
  · exact .inr (mem_erase.mp h).1
  · rcases mem_insert.mp h with rfl | h
    · exact .inl rfl
    · exact .inr (mem_erase.mp h).1

theorem get_of_mem {m : List (Nat × β)} (h : m.Pairwise fun p q => p.1 < q.1) {p : Nat × β}
    (hp : p ∈ m) : get d m p.1 = p.2 := by
  induction m with
  | nil => cases hp
  | cons q m ih =>
    obtain ⟨k, w⟩ := q
    rw [List.pairwise_cons] at h
    rcases List.mem_cons.mp hp with rfl | hp
    · simp [get]
    · have := h.1 p hp
      have : k ≠ p.1 := Nat.ne_of_lt this
      simp [get, this, ih h.2 hp]

theorem get_of_not_mem {m : List (Nat × β)} {a : Nat} (h : ∀ p ∈ m, p.1 ≠ a) :
    get d m a = d a := by
  induction m with
  | nil => rfl
  | cons q m ih =>
    obtain ⟨k, w⟩ := q
    have hk : k ≠ a := h (k, w) List.mem_cons_self
    simp [get, hk, ih fun p hp => h p (List.mem_cons_of_mem _ hp)]

/-- The tail of a canonical list reads as its first key does unlisted, up to that key. -/
theorem get_of_lt {m : List (Nat × β)} {k : Nat} (h : ∀ p ∈ m, k < p.1) {a : Nat} (ha : a ≤ k) :
    get d m a = d a :=
  get_of_not_mem d fun p hp => by have := h p hp; omega

/-- Every listed key of a canonical list reads otherwise than unlisted. -/
theorem get_ne_of_mem {m : List (Nat × β)} (h : Wf d m) {p : Nat × β} (hp : p ∈ m) :
    get d m p.1 ≠ d p.1 := by
  rw [get_of_mem d h.1 hp]
  exact h.2 p hp

end Sys2Proof.Machine.Cells
end

