-- ==== Sys2Proof/Laws/State.lean ====
section
/-! SUPPORT. One lemma per field and per observer of each named update of a state. -/

namespace Sys2Proof.Machine

variable (s : State)

/-! ### `setV` -/

@[simp] theorem setV_cfg (x : Reg) (b : Byte) : (s.setV x b).cfg = s.cfg := rfl
@[simp] theorem setV_v (x : Reg) (b : Byte) : (s.setV x b).v = s.v.set x.val b := rfl
@[simp] theorem setV_pc (x : Reg) (b : Byte) : (s.setV x b).pc = s.pc := rfl
@[simp] theorem setV_I (x : Reg) (b : Byte) : (s.setV x b).I = s.I := rfl
@[simp] theorem setV_sp (x : Reg) (b : Byte) : (s.setV x b).sp = s.sp := rfl
@[simp] theorem setV_stk (x : Reg) (b : Byte) : (s.setV x b).stk = s.stk := rfl
@[simp] theorem setV_mem (x : Reg) (b : Byte) : (s.setV x b).mem = s.mem := rfl
@[simp] theorem setV_fb (x : Reg) (b : Byte) : (s.setV x b).fb = s.fb := rfl
@[simp] theorem setV_ir (x : Reg) (b : Byte) : (s.setV x b).ir = s.ir := rfl
@[simp] theorem setV_status (x : Reg) (b : Byte) : (s.setV x b).status = s.status := rfl
@[simp] theorem setV_record (x : Reg) (b : Byte) : (s.setV x b).record = s.record := rfl
@[simp] theorem setV_rnd (x : Reg) (b : Byte) : (s.setV x b).rnd = s.rnd := rfl
@[simp] theorem setV_draws (x : Reg) (b : Byte) : (s.setV x b).draws = s.draws := rfl
@[simp] theorem setV_booted (x : Reg) (b : Byte) : (s.setV x b).booted = s.booted := rfl
@[simp] theorem setV_byteAt (x : Reg) (b : Byte) (a : Nat) : (s.setV x b).byteAt a = s.byteAt a := rfl
@[simp] theorem setV_pixel (x : Reg) (b : Byte) (c r : Nat) : (s.setV x b).pixel c r = s.pixel c r := rfl
@[simp] theorem setV_indexAddr (x : Reg) (b : Byte) (j : Nat) : (s.setV x b).indexAddr j = s.indexAddr j := rfl

/-! ### `setPc` -/

@[simp] theorem setPc_cfg (w : Word) : (s.setPc w).cfg = s.cfg := rfl
@[simp] theorem setPc_v (w : Word) : (s.setPc w).v = s.v := rfl
@[simp] theorem setPc_pc (w : Word) : (s.setPc w).pc = w := rfl
@[simp] theorem setPc_I (w : Word) : (s.setPc w).I = s.I := rfl
@[simp] theorem setPc_sp (w : Word) : (s.setPc w).sp = s.sp := rfl
@[simp] theorem setPc_stk (w : Word) : (s.setPc w).stk = s.stk := rfl
@[simp] theorem setPc_mem (w : Word) : (s.setPc w).mem = s.mem := rfl
@[simp] theorem setPc_fb (w : Word) : (s.setPc w).fb = s.fb := rfl
@[simp] theorem setPc_ir (w : Word) : (s.setPc w).ir = s.ir := rfl
@[simp] theorem setPc_status (w : Word) : (s.setPc w).status = s.status := rfl
@[simp] theorem setPc_record (w : Word) : (s.setPc w).record = s.record := rfl
@[simp] theorem setPc_rnd (w : Word) : (s.setPc w).rnd = s.rnd := rfl
@[simp] theorem setPc_draws (w : Word) : (s.setPc w).draws = s.draws := rfl
@[simp] theorem setPc_booted (w : Word) : (s.setPc w).booted = s.booted := rfl
@[simp] theorem setPc_getV (w : Word) (r : Reg) : (s.setPc w).getV r = s.getV r := rfl
@[simp] theorem setPc_byteAt (w : Word) (a : Nat) : (s.setPc w).byteAt a = s.byteAt a := rfl
@[simp] theorem setPc_pixel (w : Word) (c r : Nat) : (s.setPc w).pixel c r = s.pixel c r := rfl
@[simp] theorem setPc_indexAddr (w : Word) (j : Nat) : (s.setPc w).indexAddr j = s.indexAddr j := rfl

/-! ### `setI` -/

@[simp] theorem setI_cfg (w : Word) : (s.setI w).cfg = s.cfg := rfl
@[simp] theorem setI_v (w : Word) : (s.setI w).v = s.v := rfl
@[simp] theorem setI_pc (w : Word) : (s.setI w).pc = s.pc := rfl
@[simp] theorem setI_I (w : Word) : (s.setI w).I = w := rfl
@[simp] theorem setI_sp (w : Word) : (s.setI w).sp = s.sp := rfl
@[simp] theorem setI_stk (w : Word) : (s.setI w).stk = s.stk := rfl
@[simp] theorem setI_mem (w : Word) : (s.setI w).mem = s.mem := rfl
@[simp] theorem setI_fb (w : Word) : (s.setI w).fb = s.fb := rfl
@[simp] theorem setI_ir (w : Word) : (s.setI w).ir = s.ir := rfl
@[simp] theorem setI_status (w : Word) : (s.setI w).status = s.status := rfl
@[simp] theorem setI_record (w : Word) : (s.setI w).record = s.record := rfl
@[simp] theorem setI_rnd (w : Word) : (s.setI w).rnd = s.rnd := rfl
@[simp] theorem setI_draws (w : Word) : (s.setI w).draws = s.draws := rfl
@[simp] theorem setI_booted (w : Word) : (s.setI w).booted = s.booted := rfl
@[simp] theorem setI_getV (w : Word) (r : Reg) : (s.setI w).getV r = s.getV r := rfl
@[simp] theorem setI_byteAt (w : Word) (a : Nat) : (s.setI w).byteAt a = s.byteAt a := rfl
@[simp] theorem setI_pixel (w : Word) (c r : Nat) : (s.setI w).pixel c r = s.pixel c r := rfl

/-! ### `setMem` -/

@[simp] theorem setMem_cfg (m : Memory) : (s.setMem m).cfg = s.cfg := rfl
@[simp] theorem setMem_v (m : Memory) : (s.setMem m).v = s.v := rfl
@[simp] theorem setMem_pc (m : Memory) : (s.setMem m).pc = s.pc := rfl
@[simp] theorem setMem_I (m : Memory) : (s.setMem m).I = s.I := rfl
@[simp] theorem setMem_sp (m : Memory) : (s.setMem m).sp = s.sp := rfl
@[simp] theorem setMem_stk (m : Memory) : (s.setMem m).stk = s.stk := rfl
@[simp] theorem setMem_mem (m : Memory) : (s.setMem m).mem = m := rfl
@[simp] theorem setMem_fb (m : Memory) : (s.setMem m).fb = s.fb := rfl
@[simp] theorem setMem_ir (m : Memory) : (s.setMem m).ir = s.ir := rfl
@[simp] theorem setMem_status (m : Memory) : (s.setMem m).status = s.status := rfl
@[simp] theorem setMem_record (m : Memory) : (s.setMem m).record = s.record := rfl
@[simp] theorem setMem_rnd (m : Memory) : (s.setMem m).rnd = s.rnd := rfl
@[simp] theorem setMem_draws (m : Memory) : (s.setMem m).draws = s.draws := rfl
@[simp] theorem setMem_booted (m : Memory) : (s.setMem m).booted = s.booted := rfl
@[simp] theorem setMem_getV (m : Memory) (r : Reg) : (s.setMem m).getV r = s.getV r := rfl
@[simp] theorem setMem_pixel (m : Memory) (c r : Nat) : (s.setMem m).pixel c r = s.pixel c r := rfl
@[simp] theorem setMem_indexAddr (m : Memory) (j : Nat) : (s.setMem m).indexAddr j = s.indexAddr j := rfl

/-! ### `setFb` -/

@[simp] theorem setFb_cfg (f : Framebuffer) : (s.setFb f).cfg = s.cfg := rfl
@[simp] theorem setFb_v (f : Framebuffer) : (s.setFb f).v = s.v := rfl
@[simp] theorem setFb_pc (f : Framebuffer) : (s.setFb f).pc = s.pc := rfl
@[simp] theorem setFb_I (f : Framebuffer) : (s.setFb f).I = s.I := rfl
@[simp] theorem setFb_sp (f : Framebuffer) : (s.setFb f).sp = s.sp := rfl
@[simp] theorem setFb_stk (f : Framebuffer) : (s.setFb f).stk = s.stk := rfl
@[simp] theorem setFb_mem (f : Framebuffer) : (s.setFb f).mem = s.mem := rfl
@[simp] theorem setFb_fb (f : Framebuffer) : (s.setFb f).fb = f := rfl
@[simp] theorem setFb_ir (f : Framebuffer) : (s.setFb f).ir = s.ir := rfl
@[simp] theorem setFb_status (f : Framebuffer) : (s.setFb f).status = s.status := rfl
@[simp] theorem setFb_record (f : Framebuffer) : (s.setFb f).record = s.record := rfl
@[simp] theorem setFb_rnd (f : Framebuffer) : (s.setFb f).rnd = s.rnd := rfl
@[simp] theorem setFb_draws (f : Framebuffer) : (s.setFb f).draws = s.draws := rfl
@[simp] theorem setFb_booted (f : Framebuffer) : (s.setFb f).booted = s.booted := rfl
@[simp] theorem setFb_getV (f : Framebuffer) (r : Reg) : (s.setFb f).getV r = s.getV r := rfl
@[simp] theorem setFb_byteAt (f : Framebuffer) (a : Nat) : (s.setFb f).byteAt a = s.byteAt a := rfl
@[simp] theorem setFb_indexAddr (f : Framebuffer) (j : Nat) : (s.setFb f).indexAddr j = s.indexAddr j := rfl

/-! ### `setStack` -/

@[simp] theorem setStack_cfg (d : Fin 17) (k : Vector Word 16) :
    (s.setStack d k).cfg = s.cfg := rfl
@[simp] theorem setStack_v (d : Fin 17) (k : Vector Word 16) : (s.setStack d k).v = s.v := rfl
@[simp] theorem setStack_pc (d : Fin 17) (k : Vector Word 16) : (s.setStack d k).pc = s.pc := rfl
@[simp] theorem setStack_I (d : Fin 17) (k : Vector Word 16) : (s.setStack d k).I = s.I := rfl
@[simp] theorem setStack_sp (d : Fin 17) (k : Vector Word 16) : (s.setStack d k).sp = d := rfl
@[simp] theorem setStack_stk (d : Fin 17) (k : Vector Word 16) : (s.setStack d k).stk = k := rfl
@[simp] theorem setStack_mem (d : Fin 17) (k : Vector Word 16) :
    (s.setStack d k).mem = s.mem := rfl
@[simp] theorem setStack_fb (d : Fin 17) (k : Vector Word 16) : (s.setStack d k).fb = s.fb := rfl
@[simp] theorem setStack_ir (d : Fin 17) (k : Vector Word 16) : (s.setStack d k).ir = s.ir := rfl
@[simp] theorem setStack_status (d : Fin 17) (k : Vector Word 16) :
    (s.setStack d k).status = s.status := rfl
@[simp] theorem setStack_record (d : Fin 17) (k : Vector Word 16) :
    (s.setStack d k).record = s.record := rfl
@[simp] theorem setStack_rnd (d : Fin 17) (k : Vector Word 16) :
    (s.setStack d k).rnd = s.rnd := rfl
@[simp] theorem setStack_draws (d : Fin 17) (k : Vector Word 16) :
    (s.setStack d k).draws = s.draws := rfl
@[simp] theorem setStack_booted (d : Fin 17) (k : Vector Word 16) :
    (s.setStack d k).booted = s.booted := rfl
@[simp] theorem setStack_getV (d : Fin 17) (k : Vector Word 16) (r : Reg) : (s.setStack d k).getV r = s.getV r := rfl
@[simp] theorem setStack_byteAt (d : Fin 17) (k : Vector Word 16) (a : Nat) : (s.setStack d k).byteAt a = s.byteAt a := rfl
@[simp] theorem setStack_pixel (d : Fin 17) (k : Vector Word 16) (c r : Nat) : (s.setStack d k).pixel c r = s.pixel c r := rfl
@[simp] theorem setStack_indexAddr (d : Fin 17) (k : Vector Word 16) (j : Nat) : (s.setStack d k).indexAddr j = s.indexAddr j := rfl

/-! ### `report` -/

@[simp] theorem report_cfg (k : StatusKind) : (s.report k).cfg = s.cfg := rfl
@[simp] theorem report_v (k : StatusKind) : (s.report k).v = s.v := rfl
@[simp] theorem report_pc (k : StatusKind) : (s.report k).pc = s.pc := rfl
@[simp] theorem report_I (k : StatusKind) : (s.report k).I = s.I := rfl
@[simp] theorem report_sp (k : StatusKind) : (s.report k).sp = s.sp := rfl
@[simp] theorem report_stk (k : StatusKind) : (s.report k).stk = s.stk := rfl
@[simp] theorem report_mem (k : StatusKind) : (s.report k).mem = s.mem := rfl
@[simp] theorem report_fb (k : StatusKind) : (s.report k).fb = s.fb := rfl
@[simp] theorem report_ir (k : StatusKind) : (s.report k).ir = s.ir := rfl
@[simp] theorem report_status (k : StatusKind) : (s.report k).status = some ⟨k, s.ir⟩ := rfl
@[simp] theorem report_record (k : StatusKind) :
    (s.report k).record = if k = .success then s.record else ⟨k, s.ir⟩ :: s.record := rfl
@[simp] theorem report_rnd (k : StatusKind) : (s.report k).rnd = s.rnd := rfl
@[simp] theorem report_draws (k : StatusKind) : (s.report k).draws = s.draws := rfl
@[simp] theorem report_booted (k : StatusKind) : (s.report k).booted = s.booted := rfl
@[simp] theorem report_getV (k : StatusKind) (r : Reg) : (s.report k).getV r = s.getV r := rfl
@[simp] theorem report_byteAt (k : StatusKind) (a : Nat) : (s.report k).byteAt a = s.byteAt a := rfl
@[simp] theorem report_pixel (k : StatusKind) (c r : Nat) : (s.report k).pixel c r = s.pixel c r := rfl
@[simp] theorem report_indexAddr (k : StatusKind) (j : Nat) : (s.report k).indexAddr j = s.indexAddr j := rfl

/-! ### `withRnd` -/

@[simp] theorem withRnd_cfg (b : Byte) : (s.withRnd b).cfg = s.cfg := rfl
@[simp] theorem withRnd_v (b : Byte) : (s.withRnd b).v = s.v := rfl
@[simp] theorem withRnd_pc (b : Byte) : (s.withRnd b).pc = s.pc := rfl
@[simp] theorem withRnd_I (b : Byte) : (s.withRnd b).I = s.I := rfl
@[simp] theorem withRnd_sp (b : Byte) : (s.withRnd b).sp = s.sp := rfl
@[simp] theorem withRnd_stk (b : Byte) : (s.withRnd b).stk = s.stk := rfl
@[simp] theorem withRnd_mem (b : Byte) : (s.withRnd b).mem = s.mem := rfl
@[simp] theorem withRnd_fb (b : Byte) : (s.withRnd b).fb = s.fb := rfl
@[simp] theorem withRnd_ir (b : Byte) : (s.withRnd b).ir = s.ir := rfl
@[simp] theorem withRnd_status (b : Byte) : (s.withRnd b).status = s.status := rfl
@[simp] theorem withRnd_record (b : Byte) : (s.withRnd b).record = s.record := rfl
@[simp] theorem withRnd_rnd (b : Byte) : (s.withRnd b).rnd = b := rfl
@[simp] theorem withRnd_draws (b : Byte) : (s.withRnd b).draws = s.draws := rfl
@[simp] theorem withRnd_booted (b : Byte) : (s.withRnd b).booted = s.booted := rfl
@[simp] theorem withRnd_getV (b : Byte) (r : Reg) : (s.withRnd b).getV r = s.getV r := rfl
@[simp] theorem withRnd_byteAt (b : Byte) (a : Nat) : (s.withRnd b).byteAt a = s.byteAt a := rfl
@[simp] theorem withRnd_pixel (b : Byte) (c r : Nat) : (s.withRnd b).pixel c r = s.pixel c r := rfl
@[simp] theorem withRnd_indexAddr (b : Byte) (j : Nat) : (s.withRnd b).indexAddr j = s.indexAddr j := rfl

/-! ### `nextInput` -/

@[simp] theorem nextInput_cfg : s.nextInput.cfg = s.cfg := rfl
@[simp] theorem nextInput_v : s.nextInput.v = s.v := rfl
@[simp] theorem nextInput_pc : s.nextInput.pc = s.pc := rfl
@[simp] theorem nextInput_I : s.nextInput.I = s.I := rfl
@[simp] theorem nextInput_sp : s.nextInput.sp = s.sp := rfl
@[simp] theorem nextInput_stk : s.nextInput.stk = s.stk := rfl
@[simp] theorem nextInput_mem : s.nextInput.mem = s.mem := rfl
@[simp] theorem nextInput_fb : s.nextInput.fb = s.fb := rfl
@[simp] theorem nextInput_ir : s.nextInput.ir = s.ir := rfl
@[simp] theorem nextInput_status : s.nextInput.status = s.status := rfl
@[simp] theorem nextInput_record : s.nextInput.record = s.record := rfl
@[simp] theorem nextInput_rnd : s.nextInput.rnd = Config.randomByte s.draws := rfl
@[simp] theorem nextInput_draws : s.nextInput.draws = s.draws + 1 := rfl
@[simp] theorem nextInput_booted : s.nextInput.booted = s.booted := rfl
@[simp] theorem nextInput_getV (r : Reg) : s.nextInput.getV r = s.getV r := rfl
@[simp] theorem nextInput_byteAt (a : Nat) : s.nextInput.byteAt a = s.byteAt a := rfl
@[simp] theorem nextInput_pixel (c r : Nat) : s.nextInput.pixel c r = s.pixel c r := rfl
@[simp] theorem nextInput_indexAddr (j : Nat) : s.nextInput.indexAddr j = s.indexAddr j := rfl

/-! ### `markBooted` -/

@[simp] theorem markBooted_cfg : s.markBooted.cfg = s.cfg := rfl
@[simp] theorem markBooted_v : s.markBooted.v = s.v := rfl
@[simp] theorem markBooted_pc : s.markBooted.pc = s.pc := rfl
@[simp] theorem markBooted_I : s.markBooted.I = s.I := rfl
@[simp] theorem markBooted_sp : s.markBooted.sp = s.sp := rfl
@[simp] theorem markBooted_stk : s.markBooted.stk = s.stk := rfl
@[simp] theorem markBooted_mem : s.markBooted.mem = s.mem := rfl
@[simp] theorem markBooted_fb : s.markBooted.fb = s.fb := rfl
@[simp] theorem markBooted_ir : s.markBooted.ir = s.ir := rfl
@[simp] theorem markBooted_status : s.markBooted.status = s.status := rfl
@[simp] theorem markBooted_record : s.markBooted.record = s.record := rfl
@[simp] theorem markBooted_rnd : s.markBooted.rnd = s.rnd := rfl
@[simp] theorem markBooted_draws : s.markBooted.draws = s.draws := rfl
@[simp] theorem markBooted_booted : s.markBooted.booted = true := rfl
@[simp] theorem markBooted_getV (r : Reg) : s.markBooted.getV r = s.getV r := rfl
@[simp] theorem markBooted_byteAt (a : Nat) : s.markBooted.byteAt a = s.byteAt a := rfl
@[simp] theorem markBooted_pixel (c r : Nat) : s.markBooted.pixel c r = s.pixel c r := rfl
@[simp] theorem markBooted_indexAddr (j : Nat) : s.markBooted.indexAddr j = s.indexAddr j := rfl

/-! ### Registers -/

@[simp] theorem setV_getV_same (x : Reg) (b : Byte) : (s.setV x b).getV x = b := by
  simp [State.getV]

@[simp] theorem setV_getV_other {x r : Reg} (b : Byte) (h : r ≠ x) :
    (s.setV x b).getV r = s.getV r := by
  have : x.val ≠ r.val := fun e => h (Fin.ext e.symm)
  simp [State.getV, this]

theorem setV_getV (x r : Reg) (b : Byte) :
    (s.setV x b).getV r = if r = x then b else s.getV r := by
  split
  · subst r; simp
  · simp [*]

/-- What `State.setRange` does to a register (the other fields: `setRange_fields`). -/
theorem setRange_getV (bs : List Byte) (k : Nat) (r : Reg) :
    (State.setRange k bs s).getV r =
      if h : k ≤ r.val ∧ r.val - k < bs.length then bs[r.val - k]'h.2 else s.getV r := by
  induction bs generalizing k s with
  | nil => simp [State.setRange]
  | cons b bs ih =>
    rw [State.setRange, ih]
    by_cases hk : k + 1 ≤ r.val ∧ r.val - (k + 1) < bs.length
    · have e : r.val - k = (r.val - (k + 1)) + 1 := by omega
      have : k ≤ r.val ∧ r.val - k < (b :: bs).length := by simp; omega
      simp [hk, this, e]
    · rw [dif_neg hk]
      by_cases h16 : k < 16
      · rw [dif_pos h16, setV_getV]
        by_cases hr : r = ⟨k, h16⟩
        · have : r.val = k := by rw [hr]
          simp [hr]
        · have : r.val ≠ k := fun e => hr (Fin.ext e)
          have : ¬ (k ≤ r.val ∧ r.val - k < (b :: bs).length) := by simp; omega
          rw [if_neg hr, dif_neg this]
      · have := r.isLt
        have : ¬ (k ≤ r.val ∧ r.val - k < (b :: bs).length) := by omega
        rw [dif_neg h16, dif_neg this]

/-- `State.setRange` writes variable registers only. -/
theorem setRange_fields (bs : List Byte) (k : Nat) :
    ∃ v, State.setRange k bs s = { s with v := v } := by
  induction bs generalizing k s with
  | nil => exact ⟨s.v, rfl⟩
  | cons b bs ih =>
    rw [State.setRange]
    split
    · obtain ⟨v, hv⟩ := ih (s.setV ⟨k, _⟩ b) (k + 1)
      exact ⟨v, hv⟩
    · exact ih s (k + 1)

/-! ### A flag after a result (10_state.md R22) -/

theorem setResultFlag_getV (x r : Reg) (b : Byte) (f : Bool) :
    (s.setResultFlag x b f).getV r =
      if r = vf then flagByte f else if r = x then b else s.getV r := by
  simp only [State.setResultFlag, State.setFlag, setV_getV]

theorem setResultFlag_fields (x : Reg) (b : Byte) (f : Bool) :
    ∃ v, s.setResultFlag x b f = { s with v := v } := ⟨_, rfl⟩

end Sys2Proof.Machine
end

