-- ==== Sys2Proof/Laws/Memory.lean ====
section
/-! SUPPORT. What the memory operations can do: read after write, the canonical form, and one lemma
each for a byte write, a span read and a span write (20_memory.md R42 to R58). -/

namespace Sys2Proof.Machine

theorem Memory.read_write (c : Config) (m : Memory) (a b : Nat) (v : Byte) :
    Memory.read c (Memory.write c m a v) b = if a = b then v else Memory.read c m b :=
  Cells.get_set _ m a b v

theorem Memory.wf_write {c : Config} {m : Memory} {a : Nat} (v : Byte) (h : Memory.wf c m)
    (ha : a < memSize) : Memory.wf c (Memory.write c m a v) := by
  refine ⟨Cells.wf_set _ a v h.1, fun p hp => ?_⟩
  rcases Cells.mem_set _ hp with rfl | hp
  · exact ha
  · exact h.2 p hp

theorem Memory.wf_nil (c : Config) : Memory.wf c [] := by
  simp [Memory.wf, Cells.Wf]

/-- `ea` accepts every address under `wrap`, and the addresses up to 0xFFF under `fault` (R42). -/
theorem ea_eq_some {c : Config} {a e : Nat} :
    ea c a = some e ↔ e = a % memSize ∧ (c.addrPolicy = .wrap ∨ a ≤ 0xFFF) := by
  unfold ea
  cases c.addrPolicy
  · simp [eq_comm]
  · by_cases h : a ≤ 0xFFF
    · have : a % 4096 = a := Nat.mod_eq_of_lt (by omega)
      simp [h, this, eq_comm]
    · simp [h]

theorem ea_eq_none {c : Config} {a : Nat} :
    ea c a = none ↔ c.addrPolicy = .fault ∧ 0xFFF < a := by
  unfold ea
  cases c.addrPolicy <;> simp

theorem ea_lt {c : Config} {a e : Nat} (h : ea c a = some e) : e < memSize := by
  rw [(ea_eq_some.mp h).1]
  exact Nat.mod_lt _ (by decide)

theorem byteAt_setMem (s : State) (m : Memory) (a : Nat) :
    (s.setMem m).byteAt a = Memory.read s.cfg m a := rfl

/-- Everything a byte write can do (R44). -/
theorem memWrite_cases {s t : State} {a : Nat} {b : Byte} (h : s.memWrite a b = some t) :
    ∃ e, ea s.cfg a = some e ∧
      ((WriteLands s e ∧ (s.cfg.fontWrite = .fault → Config.inFont s.cfg e = false) ∧
          t = s.setMem (Memory.write s.cfg s.mem e b)) ∨
        (¬ WriteLands s e ∧ t = s)) := by
  unfold State.memWrite at h
  split at h
  · cases h
  · rename_i e he
    refine ⟨e, he, ?_⟩
    unfold WriteLands
    split at h
    · rename_i hf
      split at h <;> rename_i hw <;> simp_all
    · rename_i hf
      simp_all

/-- When a byte write is refused (R44). -/
theorem memWrite_eq_none {s : State} {a : Nat} {b : Byte} :
    s.memWrite a b = none ↔
      ea s.cfg a = none ∨ ∃ e, ea s.cfg a = some e ∧ s.cfg.fontWrite = .fault ∧
        Config.inFont s.cfg e = true := by
  unfold State.memWrite
  cases ea s.cfg a with
  | none => simp
  | some e =>
    by_cases hf : Config.inFont s.cfg e = true <;> cases hw : s.cfg.fontWrite <;> simp [hf]

/-- A byte write changes memory alone, at one address. -/
theorem memWrite_fields {s t : State} {a : Nat} {b : Byte} (h : s.memWrite a b = some t) :
    ∃ m, t = s.setMem m := by
  obtain ⟨e, -, ⟨-, -, rfl⟩ | ⟨-, rfl⟩⟩ := memWrite_cases h
  · exact ⟨_, rfl⟩
  · exact ⟨_, rfl⟩

/-- A span read gives the bytes at `ea(a), ea(a + 1), ...`, or is refused as a whole (R50, R58). -/
theorem spanRead_eq_some {s : State} {n a : Nat} {bs : List Byte} :
    s.spanRead a n = some bs ↔
      bs = (List.range n).map (fun k => s.byteAt ((a + k) % memSize)) ∧
        (s.cfg.addrPolicy = .wrap ∨ ∀ k, k < n → a + k ≤ 0xFFF) := by
  induction n generalizing a bs with
  | zero => simp [State.spanRead, eq_comm]
  | succ n ih =>
    rw [State.spanRead]
    have hr : List.map (fun k => s.byteAt ((a + k) % memSize)) (List.range (n + 1)) =
        s.byteAt (a % memSize) ::
          List.map (fun k => s.byteAt ((a + 1 + k) % memSize)) (List.range n) := by
      rw [List.range_succ_eq_map, List.map_cons, List.map_map]
      congr 1
      apply List.map_congr_left
      intro k _
      show s.byteAt ((a + (k + 1)) % memSize) = _
      rw [show a + (k + 1) = a + 1 + k by omega]
    rw [hr]
    have hall : (∀ k, k < n + 1 → a + k ≤ 0xFFF) ↔
        a ≤ 0xFFF ∧ ∀ k, k < n → a + 1 + k ≤ 0xFFF := by
      constructor
      · exact fun h => ⟨by simpa using h 0 (by omega), fun k hk => by
          have := h (k + 1) (by omega); omega⟩
      · rintro ⟨h0, h⟩ k hk
        rcases k with _ | k
        · simpa using h0
        · have := h k (by omega); omega
    rw [hall]
    cases hb : s.memRead a with
    | none =>
      have hb' : ea s.cfg a = none := by simpa [State.memRead] using hb
      obtain ⟨hp, hlt⟩ := ea_eq_none.mp hb'
      simp [hp]
      omega
    | some b =>
      obtain ⟨e, he, rfl⟩ := Option.map_eq_some_iff.mp hb
      obtain ⟨rfl, hok⟩ := ea_eq_some.mp he
      cases hs : s.spanRead (a + 1) n with
      | none =>
        have : ¬ (s.cfg.addrPolicy = .wrap ∨ ∀ k, k < n → a + 1 + k ≤ 0xFFF) := by
          intro hh
          have := (ih (a := a + 1)
            (bs := (List.range n).map fun k => s.byteAt ((a + 1 + k) % memSize))).mpr ⟨rfl, hh⟩
          rw [hs] at this
          cases this
        simp only [reduceCtorEq, false_iff]
        rintro ⟨-, h⟩
        exact this (h.imp_right (·.2))
      | some cs =>
        obtain ⟨rfl, hcs⟩ := ih.mp hs
        simp only [Option.some.injEq]
        constructor
        · rintro rfl
          refine ⟨rfl, ?_⟩
          rcases hok with h | h
          · exact .inl h
          · exact hcs.imp_right fun h' => ⟨h, h'⟩
        · exact fun h => h.1.symm

theorem spanRead_eq_none {s : State} {n a : Nat} :
    s.spanRead a n = none ↔ s.cfg.addrPolicy = .fault ∧ ∃ k, k < n ∧ 0xFFF < a + k := by
  rw [← not_iff_not]
  have : s.spanRead a n ≠ none ↔ s.cfg.addrPolicy = .wrap ∨ ∀ k, k < n → a + k ≤ 0xFFF := by
    rw [Option.ne_none_iff_exists']
    exact ⟨fun ⟨_, h⟩ => (spanRead_eq_some.mp h).2, fun h => ⟨_, spanRead_eq_some.mpr ⟨rfl, h⟩⟩⟩
  rw [← ne_eq, this]
  cases s.cfg.addrPolicy <;> simp

/-- A span write changes memory alone. -/
theorem spanWrite_fields {bs : List Byte} {s t : State} {a : Nat}
    (h : State.spanWrite a bs s = some t) : ∃ m, t = s.setMem m := by
  induction bs generalizing s a with
  | nil => simp only [State.spanWrite, Option.some.injEq] at h; exact ⟨s.mem, h.symm⟩
  | cons b bs ih =>
    rw [State.spanWrite] at h
    split at h
    · cases h
    · rename_i u hu
      obtain ⟨m, rfl⟩ := memWrite_fields hu
      obtain ⟨m', rfl⟩ := ih h
      exact ⟨m', rfl⟩

/-- When a span write is refused: some address is (R50). -/
theorem spanWrite_eq_none {bs : List Byte} {s : State} {a : Nat} :
    State.spanWrite a bs s = none ↔
      ∃ k, k < bs.length ∧ (ea s.cfg (a + k) = none ∨ ∃ e, ea s.cfg (a + k) = some e ∧
        s.cfg.fontWrite = .fault ∧ Config.inFont s.cfg e = true) := by
  induction bs generalizing s a with
  | nil => simp [State.spanWrite]
  | cons b bs ih =>
    rw [State.spanWrite]
    cases hu : s.memWrite a b with
    | none =>
      simp only [true_iff]
      exact ⟨0, by simp, memWrite_eq_none.mp hu⟩
    | some u =>
      have hno : ¬ _ := fun h => by
        have := memWrite_eq_none (s := s) (a := a) (b := b).mpr h
        rw [hu] at this
        cases this
      obtain ⟨m, rfl⟩ := memWrite_fields hu
      simp only [ih, setMem_cfg]
      constructor
      · rintro ⟨k, hk, h⟩
        exact ⟨k + 1, by simpa using hk, by rwa [show a + (k + 1) = a + 1 + k by omega]⟩
      · rintro ⟨k, hk, h⟩
        rcases k with _ | k
        · exact absurd (by simpa using h) hno
        · exact ⟨k, by simpa using hk, by rwa [show a + 1 + k = a + (k + 1) by omega]⟩

/-- A span write keeps the canonical form. -/
theorem spanWrite_wf {bs : List Byte} {s t : State} {a : Nat} (hw : Memory.wf s.cfg s.mem)
    (h : State.spanWrite a bs s = some t) : Memory.wf t.cfg t.mem := by
  induction bs generalizing s a with
  | nil => simp only [State.spanWrite, Option.some.injEq] at h; exact h ▸ hw
  | cons b bs ih =>
    rw [State.spanWrite] at h
    split at h
    · cases h
    · rename_i u hu
      obtain ⟨e, he, ⟨-, -, rfl⟩ | ⟨-, rfl⟩⟩ := memWrite_cases hu
      · exact ih (s := s.setMem _) (Memory.wf_write b hw (ea_lt he)) h
      · exact ih hw h

/-- A span write leaves every byte outside its addresses alone. -/
theorem spanWrite_other {bs : List Byte} {s t : State} {a : Nat}
    (h : State.spanWrite a bs s = some t) {x : Nat}
    (hx : ∀ k, k < bs.length → ea s.cfg (a + k) ≠ some x) : t.byteAt x = s.byteAt x := by
  induction bs generalizing s a with
  | nil => simp only [State.spanWrite, Option.some.injEq] at h; rw [h]
  | cons b bs ih =>
    rw [State.spanWrite] at h
    split at h
    · cases h
    · rename_i u hu
      have h0 : ea s.cfg a ≠ some x := by simpa using hx 0 (by simp)
      have hs : ∀ k, k < bs.length → ea s.cfg (a + 1 + k) ≠ some x := fun k hk => by
        have := hx (k + 1) (by simpa using hk)
        rwa [show a + (k + 1) = a + 1 + k by omega] at this
      obtain ⟨e, he, ⟨-, -, rfl⟩ | ⟨-, rfl⟩⟩ := memWrite_cases hu
      · rw [ih h hs, byteAt_setMem, Memory.read_write, if_neg]
        · rfl
        · rintro rfl; exact h0 he
      · exact ih h hs

/-- A span write of at most 4096 bytes: each byte that lands is read back, each that is dropped
leaves the old byte (R44). -/
theorem spanWrite_same {bs : List Byte} {s t : State} {a : Nat}
    (h : State.spanWrite a bs s = some t) (hn : bs.length ≤ memSize) {k : Nat}
    (hk : k < bs.length) {e : Nat} (he : ea s.cfg (a + k) = some e) :
    (WriteLands s e → t.byteAt e = bs[k]) ∧ (¬ WriteLands s e → t.byteAt e = s.byteAt e) := by
  induction bs generalizing s a k with
  | nil => simp at hk
  | cons b bs ih =>
    rw [State.spanWrite] at h
    split at h
    · cases h
    · rename_i u hu
      have hlen : bs.length + 1 ≤ 4096 := by simpa using hn
      rcases k with _ | k
      · have he0 : ea s.cfg a = some e := by simpa using he
        have hfar : ∀ j, j < bs.length → ea s.cfg (a + 1 + j) ≠ some e := by
          intro j hj hje
          have h1 := (ea_eq_some.mp he0).1
          have h2 := (ea_eq_some.mp hje).1
          simp only [memSize] at h1 h2
          omega
        obtain ⟨e', he', ⟨hl, -, rfl⟩ | ⟨hl, rfl⟩⟩ := memWrite_cases hu
        · obtain rfl : e' = e := by rw [he0] at he'; exact (Option.some.inj he').symm
          have := spanWrite_other (x := e') h hfar
          refine ⟨fun _ => ?_, fun hn => absurd hl hn⟩
          rw [this, byteAt_setMem, Memory.read_write, if_pos rfl]
          rfl
        · obtain rfl : e' = e := by rw [he0] at he'; exact (Option.some.inj he').symm
          exact ⟨fun hn => absurd hn hl, fun _ => spanWrite_other h hfar⟩
      · have hk' : k < bs.length := by simpa using hk
        have he' : ea s.cfg (a + 1 + k) = some e := by
          rwa [show a + 1 + k = a + (k + 1) by omega]
        obtain ⟨e0, he0, ⟨-, -, rfl⟩ | ⟨-, rfl⟩⟩ := memWrite_cases hu
        · have hne : e0 ≠ e := by
            rintro rfl
            have h1 := (ea_eq_some.mp he0).1
            have h2 := (ea_eq_some.mp he).1
            simp only [memSize] at h1 h2
            omega
          obtain ⟨i1, i2⟩ := ih h (show bs.length ≤ 4096 by omega) hk' he'
          refine ⟨fun hl => i1 hl, fun hl => ?_⟩
          rw [i2 hl, byteAt_setMem, Memory.read_write, if_neg hne]
          rfl
        · exact ih h (show bs.length ≤ 4096 by omega) hk' he'

end Sys2Proof.Machine
end

