-- ==== Sys2Proof/Laws/Boot.lean ====
section
/-! SUPPORT. What `loadProgram` leaves in memory (20_memory.md R51, R52). -/

namespace Sys2Proof.Machine

/-- The copy leaves every byte outside its block. -/
theorem Memory.read_copy_other {c : Config} {rom : List Byte} {a x : Nat} {m : Memory}
    (h : x < a ∨ a + rom.length ≤ x) :
    Memory.read c (Memory.copy c a rom m) x = Memory.read c m x := by
  induction rom generalizing a m with
  | nil => rfl
  | cons b bs ih =>
    rw [List.length_cons] at h
    rw [Memory.copy, ih (by omega), Memory.read_write, if_neg (by omega)]

/-- Byte `k` of the block is byte `k` of the ROM. -/
theorem Memory.read_copy {c : Config} {rom : List Byte} {a k : Nat} {m : Memory} {b : Byte}
    (h : rom[k]? = some b) : Memory.read c (Memory.copy c a rom m) (a + k) = b := by
  induction rom generalizing a k m with
  | nil => simp at h
  | cons b' bs ih =>
    rw [Memory.copy]
    rcases k with _ | k
    · obtain rfl : b' = b := by simpa using h
      rw [Memory.read_copy_other (by omega), Memory.read_write, if_pos (by omega)]
    · rw [show a + (k + 1) = a + 1 + k by omega]
      exact ih (by simpa using h)

/-- The copy of a block that ends in memory keeps the canonical form. -/
theorem Memory.wf_copy {c : Config} {rom : List Byte} {a : Nat} {m : Memory}
    (hm : Memory.wf c m) (h : a + rom.length ≤ memSize) :
    Memory.wf c (Memory.copy c a rom m) := by
  induction rom generalizing a m with
  | nil => exact hm
  | cons b bs ih =>
    rw [List.length_cons] at h
    exact ih (Memory.wf_write b hm (by omega)) (by omega)

theorem loadProgram_ok {c : Config} {rom : List Byte} (m : Memory)
    (h : rom.length ≤ memSize - c.progBase) :
    Memory.loadProgram c rom m = (.ok, Memory.copy c c.progBase rom m) :=
  if_neg (by omega)

theorem loadProgram_capacity {c : Config} {rom : List Byte} (m : Memory)
    (h : memSize - c.progBase < rom.length) :
    Memory.loadProgram c rom m = (.capacityError, m) := if_pos h

/-- What `initialize` leaves: zero outside the font region, the glyphs in it. -/
theorem Memory.read_initialize (c : Config) (a : Nat) :
    Memory.read c Memory.initialize a = Memory.blank c a := rfl

theorem Memory.blank_font (c : Config) (k : Fin 80) :
    Memory.blank c (c.fontBase + k.val) = c.fontData[k.val] := by
  have := k.isLt
  rw [Memory.blank, dif_pos ⟨by omega, by simp only [fontSize]; omega⟩]
  simp

theorem Memory.blank_other {c : Config} {a : Nat} (h : a < c.fontBase ∨ c.fontBase + fontSize ≤ a) :
    Memory.blank c a = 0 := dif_neg (by omega)

end Sys2Proof.Machine
end

