-- ==== Sys2Proof/Laws/Codec.lean ====
section
/-! SUPPORT. The fields and the layouts of an instruction word as numbers (30_encoding.md R61, R62),
and each field of each layout. -/

namespace Sys2Proof

theorem append_toNat {m k : Nat} (a : BitVec m) (b : BitVec k) :
    (a ++ b).toNat = a.toNat * 2 ^ k + b.toNat := by
  rw [BitVec.toNat_append, ← Nat.shiftLeft_add_eq_or_of_lt b.isLt, Nat.shiftLeft_eq]

/-! ### Fields of a word -/

theorem fieldOp_toNat (w : Word) : (fieldOp w).toNat = w.toNat / 4096 := by
  have := w.isLt
  simp only [fieldOp, BitVec.extractLsb'_toNat, Nat.shiftRight_eq_div_pow]
  omega

theorem fieldX_val (w : Word) : (fieldX w).val = w.toNat / 256 % 16 := by
  show (w.extractLsb' 8 4).toNat = _
  simp only [BitVec.extractLsb'_toNat, Nat.shiftRight_eq_div_pow]

theorem fieldY_val (w : Word) : (fieldY w).val = w.toNat / 16 % 16 := by
  show (w.extractLsb' 4 4).toNat = _
  simp only [BitVec.extractLsb'_toNat, Nat.shiftRight_eq_div_pow]

theorem fieldN_toNat (w : Word) : (fieldN w).toNat = w.toNat % 16 := by
  simp [fieldN, BitVec.extractLsb'_toNat]

theorem fieldNN_toNat (w : Word) : (fieldNN w).toNat = w.toNat % 256 := by
  simp [fieldNN, BitVec.extractLsb'_toNat]

theorem fieldNNN_toNat (w : Word) : (fieldNNN w).toNat = w.toNat % 4096 := by
  simp [fieldNNN, BitVec.extractLsb'_toNat]

/-! ### Layouts -/

theorem encFA_toNat (op : Nibble) (nnn : Addr) :
    (encFA op nnn).toNat = op.toNat * 4096 + nnn.toNat := append_toNat op nnn

theorem encFXI_toNat (op : Nibble) (x : Reg) (nn : Byte) :
    (encFXI op x nn).toNat = op.toNat * 4096 + (x.val * 256 + nn.toNat) := by
  show (op ++ (BitVec.ofFin (w := 4) x ++ nn)).toNat = _
  rw [append_toNat, append_toNat]
  rfl

theorem encFXY_toNat (op : Nibble) (x y : Reg) (n : Nibble) :
    (encFXY op x y n).toNat = op.toNat * 4096 + (x.val * 256 + (y.val * 16 + n.toNat)) := by
  show (op ++ (BitVec.ofFin (w := 4) x ++ (BitVec.ofFin (w := 4) y ++ n))).toNat = _
  rw [append_toNat, append_toNat, append_toNat]
  rfl

/-! ### Each field of each layout -/

@[simp] theorem fieldOp_encFA (op : Nibble) (nnn : Addr) : fieldOp (encFA op nnn) = op := by
  apply BitVec.eq_of_toNat_eq
  rw [fieldOp_toNat, encFA_toNat]
  have := nnn.isLt
  omega

@[simp] theorem fieldNNN_encFA (op : Nibble) (nnn : Addr) : fieldNNN (encFA op nnn) = nnn := by
  apply BitVec.eq_of_toNat_eq
  rw [fieldNNN_toNat, encFA_toNat]
  have := nnn.isLt
  omega

@[simp] theorem fieldOp_encFXI (op : Nibble) (x : Reg) (nn : Byte) :
    fieldOp (encFXI op x nn) = op := by
  apply BitVec.eq_of_toNat_eq
  rw [fieldOp_toNat, encFXI_toNat]
  have := x.isLt; have := nn.isLt
  omega

@[simp] theorem fieldX_encFXI (op : Nibble) (x : Reg) (nn : Byte) :
    fieldX (encFXI op x nn) = x := by
  apply Fin.ext
  rw [fieldX_val, encFXI_toNat]
  have := x.isLt; have := nn.isLt
  omega

@[simp] theorem fieldNN_encFXI (op : Nibble) (x : Reg) (nn : Byte) :
    fieldNN (encFXI op x nn) = nn := by
  apply BitVec.eq_of_toNat_eq
  rw [fieldNN_toNat, encFXI_toNat]
  have := x.isLt; have := nn.isLt
  omega

@[simp] theorem fieldOp_encFXY (op : Nibble) (x y : Reg) (n : Nibble) :
    fieldOp (encFXY op x y n) = op := by
  apply BitVec.eq_of_toNat_eq
  rw [fieldOp_toNat, encFXY_toNat]
  have := x.isLt; have := y.isLt; have := n.isLt
  omega

@[simp] theorem fieldX_encFXY (op : Nibble) (x y : Reg) (n : Nibble) :
    fieldX (encFXY op x y n) = x := by
  apply Fin.ext
  rw [fieldX_val, encFXY_toNat]
  have := x.isLt; have := y.isLt; have := n.isLt
  omega

@[simp] theorem fieldY_encFXY (op : Nibble) (x y : Reg) (n : Nibble) :
    fieldY (encFXY op x y n) = y := by
  apply Fin.ext
  rw [fieldY_val, encFXY_toNat]
  have := x.isLt; have := y.isLt; have := n.isLt
  omega

@[simp] theorem fieldN_encFXY (op : Nibble) (x y : Reg) (n : Nibble) :
    fieldN (encFXY op x y n) = n := by
  apply BitVec.eq_of_toNat_eq
  rw [fieldN_toNat, encFXY_toNat]
  have := x.isLt; have := y.isLt; have := n.isLt
  omega

/-! ### A word is the layout of its fields -/

theorem encFA_fields (w : Word) : encFA (fieldOp w) (fieldNNN w) = w := by
  apply BitVec.eq_of_toNat_eq
  rw [encFA_toNat, fieldOp_toNat, fieldNNN_toNat]
  omega

theorem encFXI_fields (w : Word) : encFXI (fieldOp w) (fieldX w) (fieldNN w) = w := by
  apply BitVec.eq_of_toNat_eq
  rw [encFXI_toNat, fieldOp_toNat, fieldX_val, fieldNN_toNat]
  omega

theorem encFXY_fields (w : Word) : encFXY (fieldOp w) (fieldX w) (fieldY w) (fieldN w) = w := by
  apply BitVec.eq_of_toNat_eq
  rw [encFXY_toNat, fieldOp_toNat, fieldX_val, fieldY_val, fieldN_toNat]
  omega

/-! ### Bytes of a word -/

@[simp] theorem wordOfBytes_bytes (w : Word) : wordOfBytes (highByte w) (lowByte w) = w := by
  apply BitVec.eq_of_toNat_eq
  have := w.isLt
  show (highByte w ++ lowByte w).toNat = _
  rw [append_toNat]
  simp only [highByte, lowByte, BitVec.extractLsb'_toNat, Nat.shiftRight_eq_div_pow]
  omega

@[simp] theorem highByte_wordOfBytes (hi lo : Byte) : highByte (wordOfBytes hi lo) = hi := by
  apply BitVec.eq_of_toNat_eq
  have e : (wordOfBytes hi lo).toNat = hi.toNat * 2 ^ 8 + lo.toNat := append_toNat hi lo
  have := hi.isLt; have := lo.isLt
  simp only [highByte, BitVec.extractLsb'_toNat, Nat.shiftRight_eq_div_pow, e]
  omega

@[simp] theorem lowByte_wordOfBytes (hi lo : Byte) : lowByte (wordOfBytes hi lo) = lo := by
  apply BitVec.eq_of_toNat_eq
  have e : (wordOfBytes hi lo).toNat = hi.toNat * 2 ^ 8 + lo.toNat := append_toNat hi lo
  have := hi.isLt; have := lo.isLt
  simp only [lowByte, BitVec.extractLsb'_toNat, Nat.shiftRight_eq_div_pow, e]
  omega

/-! ### The decoder by leading nibble (30_encoding.md R64) -/

theorem decodeWord_eq {w : Word} {op : Nibble} (h : fieldOp w = op) :
    decodeWord w =
      match op.toNat with
      | 0x0 => decodeSys (fieldNNN w)
      | 0x1 => .jp (fieldNNN w)
      | 0x2 => .call (fieldNNN w)
      | 0x3 => .seImm (fieldX w) (fieldNN w)
      | 0x4 => .sneImm (fieldX w) (fieldNN w)
      | 0x5 => .seReg (fieldX w) (fieldY w) (fieldN w)
      | 0x6 => .ldImm (fieldX w) (fieldNN w)
      | 0x7 => .addImm (fieldX w) (fieldNN w)
      | 0x8 => decodeAlu (fieldX w) (fieldY w) (fieldN w)
      | 0x9 => .sneReg (fieldX w) (fieldY w) (fieldN w)
      | 0xA => .ldI (fieldNNN w)
      | 0xB => .jpV0 (fieldNNN w)
      | 0xC => .rnd (fieldX w) (fieldNN w)
      | 0xD => .drw (fieldX w) (fieldY w) (fieldN w)
      | 0xE => .errE (fieldNNN w)
      | _ => decodeF (fieldX w) (fieldNN w) := by
  subst h
  rfl

/-! ### The second-level decoders: a well-formed instruction, whose word has the fields it was
decoded from (R65, R66, R67) -/

theorem decodeSys_spec (nnn : Addr) :
    (decodeSys nnn).WellFormed ∧ encode (decodeSys nnn) = encFA 0x0 nnn := by
  unfold decodeSys
  split
  · subst_vars; exact ⟨rfl, rfl⟩
  · split
    · subst_vars; exact ⟨rfl, rfl⟩
    · exact ⟨by simp [Instr.WellFormed, Instr.wf, assignedSys, *], rfl⟩

theorem decodeAlu_spec (x y : Reg) (n : Nibble) :
    (decodeAlu x y n).WellFormed ∧ encode (decodeAlu x y n) = encFXY 0x8 x y n := by
  unfold decodeAlu
  repeat' split
  all_goals first | (subst_vars; exact ⟨rfl, rfl⟩) | skip
  exact ⟨by simp [Instr.WellFormed, Instr.wf, assignedAlu, *], rfl⟩

theorem decodeF_spec (x : Reg) (nn : Byte) :
    (decodeF x nn).WellFormed ∧ encode (decodeF x nn) = encFXI 0xF x nn := by
  unfold decodeF
  repeat' split
  all_goals first | (subst_vars; exact ⟨rfl, rfl⟩) | skip
  exact ⟨by simp [Instr.WellFormed, Instr.wf, assignedF, *], rfl⟩

end Sys2Proof
end

