-- ==== Sys2Proof/Laws/Stack.lean ====
section
/-! SUPPORT. What `Push`, `Pop` and `Peek` can do (10_state.md R28 to R30). -/

namespace Sys2Proof.Machine

theorem push_ok {s : State} (a : Word) (h : s.sp.val < 16) :
    s.push a = .ok (s.setStack ⟨s.sp.val + 1, by omega⟩ (s.stk.set s.sp.val a)) := dif_pos h

theorem push_full {s : State} (a : Word) (h : s.sp.val = 16) :
    s.push a = .error .stackOverflow := dif_neg (by omega)

theorem pop_ok {s : State} (h : 0 < s.sp.val) :
    s.pop = .ok (s.stk[s.sp.val - 1]'(by omega), s.setStack ⟨s.sp.val - 1, by omega⟩ s.stk) :=
  dif_pos h

theorem pop_empty {s : State} (h : s.sp.val = 0) : s.pop = .error .stackUnderflow :=
  dif_neg (by omega)

theorem peek_ok {s : State} (h : 0 < s.sp.val) :
    s.peek = .ok (s.stk[s.sp.val - 1]'(by omega)) := dif_pos h

theorem peek_empty {s : State} (h : s.sp.val = 0) : s.peek = .error .stackUnderflow :=
  dif_neg (by omega)

/-- Everything a push can do. -/
theorem push_cases {s t : State} {a : Word} (h : s.push a = .ok t) :
    ∃ hs : s.sp.val < 16,
      t = s.setStack ⟨s.sp.val + 1, by omega⟩ (s.stk.set s.sp.val a) := by
  by_cases hs : s.sp.val < 16
  · rw [push_ok a hs] at h
    exact ⟨hs, (Except.ok.inj h).symm⟩
  · rw [push_full a (by omega)] at h
    cases h

/-- Everything a pop can do. -/
theorem pop_cases {s t : State} {a : Word} (h : s.pop = .ok (a, t)) :
    ∃ _ : 0 < s.sp.val, a = s.stk[s.sp.val - 1]'(by omega) ∧
      t = s.setStack ⟨s.sp.val - 1, by omega⟩ s.stk := by
  by_cases hs : 0 < s.sp.val
  · rw [pop_ok hs] at h
    obtain ⟨rfl, rfl⟩ := Prod.mk.inj (Except.ok.inj h)
    exact ⟨hs, rfl, rfl⟩
  · rw [pop_empty (by omega)] at h
    cases h

end Sys2Proof.Machine
end

