-- ==== Sys2Proof/Laws/Exec.lean ====
section
/-! SUPPORT. What each instruction with more than one path answers on each of them. -/

namespace Sys2Proof.Machine

/-! ### Block accesses from `I`: accepted or refused as a whole (20_memory.md R50) -/

theorem spanRead_of_allowed {s : State} {n : Nat} (h : ReadsAllowed s n) :
    s.spanRead (s.indexAddr 0) n =
      some ((List.range n).map fun k => s.byteAt (s.indexAddr k % memSize)) :=
  spanRead_eq_some.mpr ⟨rfl, h⟩

theorem spanRead_of_not_allowed {s : State} {n : Nat} (h : ¬ ReadsAllowed s n) :
    s.spanRead (s.indexAddr 0) n = none := by
  rw [ReadsAllowed, not_or, not_forall] at h
  obtain ⟨hp, k, hk⟩ := h
  rw [Classical.not_imp, Nat.not_le] at hk
  refine spanRead_eq_none.mpr ⟨?_, k, hk⟩
  cases h' : s.cfg.addrPolicy
  · exact absurd h' hp
  · rfl

theorem ea_of_allowed {s : State} {n k : Nat} (h : ReadsAllowed s n) (hk : k < n) :
    ea s.cfg (s.indexAddr k) = some (s.indexAddr k % memSize) :=
  ea_eq_some.mpr ⟨rfl, h.imp id fun h => h k hk⟩

theorem spanWrite_of_allowed {s : State} {bs : List Byte} (h : WritesAllowed s bs.length) :
    ∃ t, State.spanWrite (s.indexAddr 0) bs s = some t := by
  rw [← Option.ne_none_iff_exists']
  intro e
  obtain ⟨k, hk, h1 | ⟨e, h1, h2, h3⟩⟩ := spanWrite_eq_none.mp e
  · obtain ⟨hp, hlt⟩ := ea_eq_none.mp h1
    rcases h.1 with h0 | h0
    · rw [hp] at h0; cases h0
    · have h0 : s.I.toNat + k ≤ 0xFFF := h0 k hk
      have hlt : 0xFFF < s.I.toNat + k := hlt
      omega
  · have := h.2 h2 e ⟨k, hk, h1⟩
    rw [h3] at this; cases this

theorem spanWrite_of_not_allowed {s : State} {bs : List Byte} (h : ¬ WritesAllowed s bs.length) :
    State.spanWrite (s.indexAddr 0) bs s = none := by
  rw [spanWrite_eq_none]
  by_cases hr : ReadsAllowed s bs.length
  · simp only [WritesAllowed, hr, true_and, not_forall] at h
    obtain ⟨hf, a, ⟨k, hk, he⟩, hn⟩ := h
    exact ⟨k, hk, .inr ⟨a, he, hf, by simpa using hn⟩⟩
  · obtain ⟨hp, k, hk, hlt⟩ := spanRead_eq_none.mp (spanRead_of_not_allowed hr)
    exact ⟨k, hk, .inl (ea_eq_none.mpr ⟨hp, hlt⟩)⟩

theorem regsUpTo_length (s : State) (x : Reg) : (s.regsUpTo x).length = x.val + 1 := by
  have := x.isLt
  simp only [State.regsUpTo, List.length_take, Vector.length_toList]
  omega

theorem regsUpTo_getElem (s : State) (x k : Reg) (h : k.val < (s.regsUpTo x).length) :
    (s.regsUpTo x)[k.val] = s.getV k := by
  simp [State.regsUpTo, State.getV]

/-! ### The paths of each instruction -/

theorem exec_ret_ok {s : State} (h : 0 < s.sp.val) :
    exec .ret s = .next (((s.setStack ⟨s.sp.val - 1, by omega⟩ s.stk).setPc
      (s.stk[s.sp.val - 1]'(by omega))).report .success) := by
  rw [exec, execRet, pop_ok h]; rfl

theorem exec_ret_empty {s : State} (h : s.sp.val = 0) :
    exec .ret s = .next (s.report .invalidStackOperation) := by
  rw [exec, execRet, pop_empty h]; rfl

theorem exec_call_ok {s : State} (nnn : Addr) (h : s.sp.val < 16) :
    exec (.call nnn) s = .next (((s.setStack ⟨s.sp.val + 1, by omega⟩
      (s.stk.set s.sp.val s.pc)).setPc (zextAddr nnn)).report .success) := by
  rw [exec, execCall, push_ok _ h]; rfl

theorem exec_call_full {s : State} (nnn : Addr) (h : s.sp.val = 16) :
    exec (.call nnn) s = .next (s.report .invalidStackOperation) := by
  rw [exec, execCall, push_full _ h]; rfl

theorem exec_addI_overflow {s : State} {x : Reg} (h : 0xFFF < s.I.toNat + (s.getV x).toNat) :
    exec (.addI x) s =
      .next (((s.setI (indexPlus s.I (s.getV x).toNat)).setFlag true).report .success) := by
  rw [exec, execAddI, if_pos (by simp only [indexOverflow, decide_eq_true_eq]; exact h)]; rfl

theorem exec_addI_in_range {s : State} {x : Reg}
    (h : s.I.toNat + (s.getV x).toNat ≤ 0xFFF) :
    exec (.addI x) s = .next ((s.setI (indexPlus s.I (s.getV x).toNat)).report .success) := by
  rw [exec, execAddI, if_neg (by simp only [indexOverflow, decide_eq_true_eq]; omega)]; rfl

theorem exec_ldB_ok {s t : State} {x : Reg}
    (h : State.spanWrite (s.indexAddr 0) (decimalDigits (s.getV x)) s = some t) :
    exec (.ldB x) s = .next (t.report .success) := by
  rw [exec, execLdB, h]; rfl

theorem exec_ldB_none {s : State} {x : Reg}
    (h : State.spanWrite (s.indexAddr 0) (decimalDigits (s.getV x)) s = none) :
    exec (.ldB x) s = .next (s.report .invalidMemoryAccess) := by
  rw [exec, execLdB, h]; rfl

theorem exec_stRegs_ok {s t : State} {x : Reg}
    (h : State.spanWrite (s.indexAddr 0) (s.regsUpTo x) s = some t) :
    exec (.stRegs x) s = .next ((t.setI (s.indexAfterBlock x)).report .success) := by
  rw [exec, execStRegs, h]; rfl

theorem exec_stRegs_none {s : State} {x : Reg}
    (h : State.spanWrite (s.indexAddr 0) (s.regsUpTo x) s = none) :
    exec (.stRegs x) s = .next (s.report .invalidMemoryAccess) := by
  rw [exec, execStRegs, h]; rfl

theorem exec_ldRegs_ok {s : State} {x : Reg} {bs : List Byte}
    (h : s.spanRead (s.indexAddr 0) (x.val + 1) = some bs) :
    exec (.ldRegs x) s =
      .next (((State.setRange 0 bs s).setI (s.indexAfterBlock x)).report .success) := by
  rw [exec, execLdRegs, h]; rfl

theorem exec_ldRegs_none {s : State} {x : Reg}
    (h : s.spanRead (s.indexAddr 0) (x.val + 1) = none) :
    exec (.ldRegs x) s = .next (s.report .invalidMemoryAccess) := by
  rw [exec, execLdRegs, h]; rfl

theorem exec_drw_ok {s : State} {x y : Reg} {n : Nibble} {rows : List Byte}
    (h : s.spanRead (s.indexAddr 0) n.toNat = some rows) :
    exec (.drw x y n) s =
      .next (((s.setFb (drawSprite s.cfg (s.getV x) (s.getV y) rows s.fb).1).setFlag
        (drawSprite s.cfg (s.getV x) (s.getV y) rows s.fb).2).report .success) := by
  rw [exec, execDrw, h]; rfl

theorem exec_drw_none {s : State} {x y : Reg} {n : Nibble}
    (h : s.spanRead (s.indexAddr 0) n.toNat = none) :
    exec (.drw x y n) s = .next (s.report .invalidMemoryAccess) := by
  rw [exec, execDrw, h]; rfl

end Sys2Proof.Machine
end

