-- ==== Sys2Proof/Laws/Framebuffer.lean ====
section
/-! SUPPORT. What drawing does to the framebuffer, bit by bit and as a whole (44_display.md R171). -/

namespace Sys2Proof.Machine

theorem Framebuffer.inside_iff {c : Config} {x y : Nat} :
    Framebuffer.inside c x y = true ↔ x < c.displayW ∧ y < c.displayH := by
  simp [Framebuffer.inside]

theorem Framebuffer.key_lt {c : Config} {x y : Nat} (h : Framebuffer.inside c x y = true) :
    Framebuffer.key c x y < c.displayW * c.displayH := by
  obtain ⟨hx, hy⟩ := Framebuffer.inside_iff.mp h
  have : (y + 1) * c.displayW ≤ c.displayH * c.displayW := Nat.mul_le_mul_right _ hy
  rw [Nat.mul_comm c.displayW]
  rw [Nat.add_mul, Nat.one_mul] at this
  unfold Framebuffer.key
  omega

theorem Framebuffer.key_inj {c : Config} {x y x' y' : Nat}
    (h : Framebuffer.inside c x y = true) (h' : Framebuffer.inside c x' y' = true)
    (e : Framebuffer.key c x y = Framebuffer.key c x' y') : x = x' ∧ y = y' := by
  obtain ⟨hx, -⟩ := Framebuffer.inside_iff.mp h
  obtain ⟨hx', -⟩ := Framebuffer.inside_iff.mp h'
  unfold Framebuffer.key at e
  have hW : 0 < c.displayW := by omega
  have hdiv := congrArg (· / c.displayW) e
  have hmod := congrArg (· % c.displayW) e
  simp only [Nat.mul_comm _ c.displayW, Nat.mul_add_div hW, Nat.div_eq_of_lt hx,
    Nat.div_eq_of_lt hx', Nat.mul_add_mod, Nat.mod_eq_of_lt hx, Nat.mod_eq_of_lt hx',
    Nat.add_zero] at hdiv hmod
  exact ⟨hmod, hdiv⟩

theorem Framebuffer.get_flip {c : Config} (f : Framebuffer) {x y : Nat}
    (h : Framebuffer.inside c x y = true) (x' y' : Nat) :
    Framebuffer.get c (Framebuffer.flip c f x y) x' y' =
      if x = x' ∧ y = y' then !Framebuffer.get c f x y else Framebuffer.get c f x' y' := by
  by_cases h' : Framebuffer.inside c x' y' = true
  · by_cases e : x = x' ∧ y = y'
    · obtain ⟨rfl, rfl⟩ := e
      simp [Framebuffer.flip, Framebuffer.get, Cells.get_set, h]
    · have : Framebuffer.key c x y ≠ Framebuffer.key c x' y' :=
        fun k => e (Framebuffer.key_inj h h' k)
      simp [Framebuffer.flip, Framebuffer.get, Cells.get_set, h', this, e]
  · have : ¬ (x = x' ∧ y = y') := by rintro ⟨rfl, rfl⟩; exact h' h
    simp [Framebuffer.get, h', this]

theorem Framebuffer.wf_flip {c : Config} {f : Framebuffer} {x y : Nat}
    (h : Framebuffer.inside c x y = true) (hf : Framebuffer.wf c f) :
    Framebuffer.wf c (Framebuffer.flip c f x y) := by
  refine ⟨Cells.wf_set _ _ _ hf.1, fun p hp => ?_⟩
  rcases Cells.mem_set _ hp with e | hp
  · rw [e]; exact Framebuffer.key_lt h
  · exact hf.2 p hp

@[simp] theorem Framebuffer.get_clear (c : Config) (x y : Nat) :
    Framebuffer.get c Framebuffer.clear x y = false := by
  simp [Framebuffer.get, Framebuffer.clear]

theorem Framebuffer.wf_clear (c : Config) : Framebuffer.wf c Framebuffer.clear := by
  simp [Framebuffer.wf, Framebuffer.clear, Cells.Wf]

/-- What a drawing does, for a set `P` of covered places: it flips them, leaves the others, and has
collided iff it had before or one of them was set. -/
def DrawsOn (c : Config) (P : Nat → Nat → Prop) (acc acc' : Framebuffer × Bool) : Prop :=
  (∀ x y, P x y → Framebuffer.get c acc'.1 x y = !Framebuffer.get c acc.1 x y) ∧
  (∀ x y, ¬ P x y → Framebuffer.get c acc'.1 x y = Framebuffer.get c acc.1 x y) ∧
  (acc'.2 = true ↔ acc.2 = true ∨ ∃ x y, P x y ∧ Framebuffer.get c acc.1 x y = true) ∧
  (Framebuffer.wf c acc.1 → Framebuffer.wf c acc'.1)

/-- Two drawings on disjoint places make one on their union. -/
theorem DrawsOn.trans {c : Config} {P Q : Nat → Nat → Prop} {a b d : Framebuffer × Bool}
    (h1 : DrawsOn c P a b) (h2 : DrawsOn c Q b d) (hd : ∀ x y, P x y → ¬ Q x y) :
    DrawsOn c (fun x y => P x y ∨ Q x y) a d := by
  obtain ⟨p1, p2, p3, p4⟩ := h1
  obtain ⟨q1, q2, q3, q4⟩ := h2
  refine ⟨?_, ?_, ?_, fun h => q4 (p4 h)⟩
  · rintro x y (h | h)
    · rw [q2 x y (hd x y h), p1 x y h]
    · rw [q1 x y h, p2 x y fun hp => hd x y hp h]
  · intro x y h
    rw [q2 x y fun hq => h (.inr hq), p2 x y fun hp => h (.inl hp)]
  · rw [q3, p3]
    constructor
    · rintro ((h | ⟨x, y, h, g⟩) | ⟨x, y, h, g⟩)
      · exact .inl h
      · exact .inr ⟨x, y, .inl h, g⟩
      · exact .inr ⟨x, y, .inr h, by rwa [p2 x y fun hp => hd x y hp h] at g⟩
    · rintro (h | ⟨x, y, h | h, g⟩)
      · exact .inl (.inl h)
      · exact .inl (.inr ⟨x, y, h, g⟩)
      · exact .inr ⟨x, y, h, by rwa [p2 x y fun hp => hd x y hp h]⟩

theorem DrawsOn.congr {c : Config} {P Q : Nat → Nat → Prop} {a b : Framebuffer × Bool}
    (h : DrawsOn c P a b) (e : ∀ x y, P x y ↔ Q x y) : DrawsOn c Q a b := by
  have : P = Q := funext fun x => funext fun y => propext (e x y)
  rwa [← this]

theorem DrawsOn.refl (c : Config) (a : Framebuffer × Bool) : DrawsOn c (fun _ _ => False) a a :=
  ⟨fun _ _ h => h.elim, fun _ _ _ => rfl, by simp, id⟩

/-- One bit of a sprite. -/
theorem drawBit_spec (c : Config) (bit : Bool) (px py : Nat) (acc : Framebuffer × Bool) :
    DrawsOn c (fun x y => bit = true ∧ Framebuffer.inside c px py = true ∧ x = px ∧ y = py)
      acc (drawBit c bit px py acc) := by
  unfold drawBit
  by_cases h : (bit && Framebuffer.inside c px py) = true
  · rw [if_pos h]
    obtain ⟨hb, hi⟩ := by simpa using h
    refine ⟨?_, ?_, ?_, Framebuffer.wf_flip hi⟩
    · rintro x y ⟨-, -, rfl, rfl⟩
      simp [Framebuffer.get_flip _ hi]
    · intro x y hn
      rw [Framebuffer.get_flip _ hi, if_neg]
      rintro ⟨rfl, rfl⟩
      exact hn ⟨hb, hi, rfl, rfl⟩
    · simp [hb, hi]
  · rw [if_neg h]
    refine (DrawsOn.refl c acc).congr fun x y => ⟨False.elim, ?_⟩
    rintro ⟨hb, hi, -⟩
    exact h (by simp [hb, hi])

/-- The last `n` bits of a sprite row. -/
theorem drawRow_spec (c : Config) (row : Byte) (x0 y0 n : Nat) (hn : n ≤ 8)
    (acc : Framebuffer × Bool) :
    DrawsOn c (fun x y => Framebuffer.inside c x y = true ∧ y = y0 ∧
        ∃ b, 8 - n ≤ b ∧ b < 8 ∧ x = x0 + b ∧ row.getLsbD (7 - b) = true)
      acc (drawRow c row x0 y0 n acc) := by
  induction n generalizing acc with
  | zero =>
    refine (DrawsOn.refl c acc).congr fun x y => ⟨False.elim, ?_⟩
    rintro ⟨-, -, b, h1, h2, -⟩
    omega
  | succ n ih =>
    rw [drawRow]
    refine ((drawBit_spec c _ _ _ acc).trans (ih (by omega) _) ?_).congr ?_
    · rintro x y ⟨-, -, hx, -⟩ ⟨-, -, b, hb, -, hx', -⟩
      omega
    · intro x y
      constructor
      · rintro (⟨hb, hi, rfl, rfl⟩ | ⟨hi, hy, b, h1, h2, h3, h4⟩)
        · exact ⟨hi, rfl, 7 - n, by omega, by omega, rfl, by
            rwa [show 7 - (7 - n) = n by omega]⟩
        · exact ⟨hi, hy, b, by omega, h2, h3, h4⟩
      · rintro ⟨hi, rfl, b, h1, h2, rfl, h4⟩
        by_cases hbn : b = 7 - n
        · subst hbn
          rw [show 7 - (7 - n) = n by omega] at h4
          exact .inl ⟨h4, hi, rfl, rfl⟩
        · exact .inr ⟨hi, rfl, b, by omega, h2, rfl, h4⟩

/-- The rows of a sprite from row `y0` on. -/
theorem drawRows_spec (c : Config) (x0 y0 : Nat) (rows : List Byte) (acc : Framebuffer × Bool) :
    DrawsOn c (fun x y => Framebuffer.inside c x y = true ∧
        ∃ r b, b < 8 ∧ x = x0 + b ∧ y = y0 + r ∧
          ∃ row, rows[r]? = some row ∧ row.getLsbD (7 - b) = true)
      acc (drawRows c x0 y0 rows acc) := by
  induction rows generalizing acc y0 with
  | nil =>
    refine (DrawsOn.refl c acc).congr fun x y => ⟨False.elim, ?_⟩
    rintro ⟨-, r, b, -, -, -, row, h, -⟩
    simp at h
  | cons row rows ih =>
    rw [drawRows]
    refine ((drawRow_spec c row x0 y0 8 (by omega) acc).trans (ih (y0 + 1) _) ?_).congr ?_
    · rintro x y ⟨-, hy, -⟩ ⟨-, r, b, -, -, hy', -⟩
      omega
    · intro x y
      constructor
      · rintro (⟨hi, rfl, b, -, hb, rfl, hbit⟩ | ⟨hi, r, b, hb, rfl, rfl, row', hr, hbit⟩)
        · exact ⟨hi, 0, b, hb, rfl, rfl, row, rfl, hbit⟩
        · exact ⟨hi, r + 1, b, hb, rfl, by omega, row', by simpa using hr, hbit⟩
      · rintro ⟨hi, r, b, hb, rfl, rfl, row', hr, hbit⟩
        rcases r with _ | r
        · obtain rfl : row = row' := by simpa using hr
          exact .inl ⟨hi, rfl, b, by omega, hb, rfl, hbit⟩
        · exact .inr ⟨hi, r, b, hb, rfl, by omega, row', by simpa using hr, hbit⟩

/-- A sprite flips exactly the pixels it covers, collides iff one of them was set, and keeps the
canonical form (R171). -/
theorem drawSprite_spec (c : Config) (cx cy : Byte) (rows : List Byte) (f : Framebuffer) :
    DrawsOn c (SpriteCovers c cx cy rows) (f, false) (drawSprite c cx cy rows f) := by
  refine (drawRows_spec c _ _ rows (f, false)).congr fun x y => ?_
  rw [Framebuffer.inside_iff]
  unfold SpriteCovers
  tauto

end Sys2Proof.Machine
end

