-- ==== Sys2Proof/Laws/Operands.lean ====
section
/-! SUPPORT. The operand forms and flags as numbers (30_encoding.md R63, 43_index_memory.md R150 to
R155, 10_state.md R21). -/

namespace Sys2Proof.Machine

@[simp] theorem zextAddr_toNat (nnn : Addr) : (zextAddr nnn).toNat = nnn.toNat := by
  have := nnn.isLt
  simp only [zextAddr, BitVec.toNat_setWidth]
  omega

@[simp] theorem zextByte_toNat (b : Byte) : (zextByte b).toNat = b.toNat := by
  have := b.isLt
  simp only [zextByte, BitVec.toNat_setWidth]
  omega

/-- The sum `BNNN` writes does not wrap. -/
theorem jpV0_target (nnn : Addr) (b : Byte) :
    (zextAddr nnn + zextByte b).toNat = nnn.toNat + b.toNat := by
  have := nnn.isLt
  have := b.isLt
  rw [BitVec.toNat_add, zextAddr_toNat, zextByte_toNat]
  omega

@[simp] theorem indexPlus_toNat (i : Word) (d : Nat) :
    (indexPlus i d).toNat = (i.toNat + d) % 4096 := by
  simp only [indexPlus, memSize, BitVec.toNat_ofNat]
  omega

theorem indexPlus_le (i : Word) (d : Nat) : (indexPlus i d).toNat ≤ 0xFFF := by
  rw [indexPlus_toNat]
  omega

/-- The address of a glyph, for every legal `FONT_BASE`. -/
theorem glyphAddr_toNat {c : Config} (h : c.Legal) (b : Byte) :
    (glyphAddr c b).toNat = c.fontBase + b.toNat % 16 * 5 := by
  have h3 : c.fontBase + 80 ≤ 4096 := h.2.2.1
  have hb : (b &&& 0x0F).toNat = b.toNat % 16 := by
    rw [BitVec.toNat_and]; exact Nat.and_two_pow_sub_one_eq_mod _ 4
  have hm : b.toNat % 16 < 16 := Nat.mod_lt _ (by decide)
  simp only [glyphAddr, BitVec.toNat_ofNat, hb]
  omega

theorem glyphAddr_le {c : Config} (h : c.Legal) (b : Byte) : (glyphAddr c b).toNat ≤ 0xFFF := by
  have h3 : c.fontBase + 80 ≤ 4096 := h.2.2.1
  have hm : b.toNat % 16 < 16 := Nat.mod_lt _ (by decide)
  rw [glyphAddr_toNat h]
  omega

@[simp] theorem flagByte_true : flagByte true = 1 := rfl
@[simp] theorem flagByte_false : flagByte false = 0 := rfl

theorem flagByte_lowBit (a : Byte) : (flagByte (lowBit a)).toNat = a.toNat % 2 := by
  revert a; decide

theorem flagByte_highBit (a : Byte) : (flagByte (highBit a)).toNat = a.toNat / 128 := by
  revert a; decide

theorem decimalDigits_length (b : Byte) : (decimalDigits b).length = 3 := rfl

end Sys2Proof.Machine
end

