-- ==== Sys2Proof/Laws/PerInstr.lean ====
section
/-! SUPPORT. One statement about the encoding of each instruction, and its lemma per constructor:
the decoder reads an instruction's own word as that instruction (30_encoding.md R64 to R67). -/

namespace Sys2Proof.Laws.RoundTrip

/-- The decoder reads the word of a well-formed `i` as `i`. -/
def Statement (i : Instr) : Prop := i.WellFormed → decodeWord (encode i) = i

theorem cls : Statement .cls := fun _ => rfl
theorem ret : Statement .ret := fun _ => rfl
theorem jp (nnn : Addr) : Statement (.jp nnn) := fun _ => by simp [decodeWord, encode]
theorem call (nnn : Addr) : Statement (.call nnn) := fun _ => by simp [decodeWord, encode]
theorem seImm (x : Reg) (nn : Byte) : Statement (.seImm x nn) :=
  fun _ => by simp [decodeWord, encode]
theorem sneImm (x : Reg) (nn : Byte) : Statement (.sneImm x nn) :=
  fun _ => by simp [decodeWord, encode]
theorem seReg (x y : Reg) (n : Nibble) : Statement (.seReg x y n) :=
  fun _ => by simp [decodeWord, encode]
theorem ldImm (x : Reg) (nn : Byte) : Statement (.ldImm x nn) :=
  fun _ => by simp [decodeWord, encode]
theorem addImm (x : Reg) (nn : Byte) : Statement (.addImm x nn) :=
  fun _ => by simp [decodeWord, encode]
theorem ldReg (x y : Reg) : Statement (.ldReg x y) :=
  fun _ => by simp [decodeWord, encode, decodeAlu]
theorem orReg (x y : Reg) : Statement (.orReg x y) :=
  fun _ => by simp [decodeWord, encode, decodeAlu]
theorem andReg (x y : Reg) : Statement (.andReg x y) :=
  fun _ => by simp [decodeWord, encode, decodeAlu]
theorem xorReg (x y : Reg) : Statement (.xorReg x y) :=
  fun _ => by simp [decodeWord, encode, decodeAlu]
theorem addReg (x y : Reg) : Statement (.addReg x y) :=
  fun _ => by simp [decodeWord, encode, decodeAlu]
theorem sub (x y : Reg) : Statement (.sub x y) :=
  fun _ => by simp [decodeWord, encode, decodeAlu]
theorem shr (x y : Reg) : Statement (.shr x y) :=
  fun _ => by simp [decodeWord, encode, decodeAlu]
theorem subn (x y : Reg) : Statement (.subn x y) :=
  fun _ => by simp [decodeWord, encode, decodeAlu]
theorem shl (x y : Reg) : Statement (.shl x y) :=
  fun _ => by simp [decodeWord, encode, decodeAlu]
theorem sneReg (x y : Reg) (n : Nibble) : Statement (.sneReg x y n) :=
  fun _ => by simp [decodeWord, encode]
theorem ldI (nnn : Addr) : Statement (.ldI nnn) := fun _ => by simp [decodeWord, encode]
theorem jpV0 (nnn : Addr) : Statement (.jpV0 nnn) := fun _ => by simp [decodeWord, encode]
theorem rnd (x : Reg) (nn : Byte) : Statement (.rnd x nn) :=
  fun _ => by simp [decodeWord, encode]
theorem drw (x y : Reg) (n : Nibble) : Statement (.drw x y n) :=
  fun _ => by simp [decodeWord, encode]
theorem addI (x : Reg) : Statement (.addI x) := fun _ => by simp [decodeWord, encode, decodeF]
theorem ldF (x : Reg) : Statement (.ldF x) := fun _ => by simp [decodeWord, encode, decodeF]
theorem ldB (x : Reg) : Statement (.ldB x) := fun _ => by simp [decodeWord, encode, decodeF]
theorem stRegs (x : Reg) : Statement (.stRegs x) := fun _ => by simp [decodeWord, encode, decodeF]
theorem ldRegs (x : Reg) : Statement (.ldRegs x) := fun _ => by simp [decodeWord, encode, decodeF]
theorem errSys (nnn : Addr) : Statement (.errSys nnn) := fun h => by
  simp [Instr.WellFormed, Instr.wf, assignedSys] at h
  simp [decodeWord, encode, decodeSys, h]
theorem errAlu (x y : Reg) (n : Nibble) : Statement (.errAlu x y n) := fun h => by
  simp [Instr.WellFormed, Instr.wf, assignedAlu] at h
  simp [decodeWord, encode, decodeAlu, h]
theorem errE (nnn : Addr) : Statement (.errE nnn) := fun _ => by simp [decodeWord, encode]
theorem errF (x : Reg) (nn : Byte) : Statement (.errF x nn) := fun h => by
  simp [Instr.WellFormed, Instr.wf, assignedF] at h
  simp [decodeWord, encode, decodeF, h]

end Sys2Proof.Laws.RoundTrip
end

