-- ==== Sys2Proof/Laws/Step.lean ====
section
/-! SUPPORT. What an instruction and a step can do, said once (40_fetch_decode.md R80, R81, R89). -/

namespace Sys2Proof.Machine

/-- What an instruction answers: a next state that reports a kind. It leaves the parameters, the word
fetched and the step's input alone, and a kind other than Success comes with no effect (R89). -/
theorem exec_next (i : Instr) (s : State) :
    ∃ (k : StatusKind) (u : State), exec i s = .next (u.report k) ∧
      u = { s with v := u.v, pc := u.pc, I := u.I, sp := u.sp, stk := u.stk, mem := u.mem,
                   fb := u.fb } ∧
      (k ≠ .success → u = s) := by
  cases i
  case ret =>
    show ∃ k u, execRet s = _ ∧ _
    unfold execRet
    split
    · rename_i a t h
      obtain ⟨_, rfl, rfl⟩ := pop_cases h
      exact ⟨.success, _, rfl, rfl, by simp⟩
    · exact ⟨_, s, rfl, rfl, fun _ => rfl⟩
  case call nnn =>
    show ∃ k u, execCall nnn s = _ ∧ _
    unfold execCall
    split
    · rename_i t h
      obtain ⟨_, rfl⟩ := push_cases h
      exact ⟨.success, _, rfl, rfl, by simp⟩
    · exact ⟨_, s, rfl, rfl, fun _ => rfl⟩
  case seImm x nn =>
    refine ⟨.success, s.skipIf (s.getV x == nn), rfl, ?_, by simp⟩
    unfold State.skipIf; split <;> rfl
  case sneImm x nn =>
    refine ⟨.success, s.skipIf (s.getV x != nn), rfl, ?_, by simp⟩
    unfold State.skipIf; split <;> rfl
  case seReg x y n =>
    refine ⟨.success, s.skipIf (s.getV x == s.getV y), rfl, ?_, by simp⟩
    unfold State.skipIf; split <;> rfl
  case sneReg x y n =>
    refine ⟨.success, s.skipIf (s.getV x != s.getV y), rfl, ?_, by simp⟩
    unfold State.skipIf; split <;> rfl
  case addI x =>
    refine ⟨.success, _, rfl, ?_, by simp⟩
    split <;> rfl
  case ldB x =>
    show ∃ k u, execLdB x s = _ ∧ _
    unfold execLdB
    split
    · rename_i t h
      obtain ⟨m, rfl⟩ := spanWrite_fields h
      exact ⟨.success, _, rfl, rfl, by simp⟩
    · exact ⟨_, s, rfl, rfl, fun _ => rfl⟩
  case stRegs x =>
    show ∃ k u, execStRegs x s = _ ∧ _
    unfold execStRegs
    split
    · rename_i t h
      obtain ⟨m, rfl⟩ := spanWrite_fields h
      exact ⟨.success, _, rfl, rfl, by simp⟩
    · exact ⟨_, s, rfl, rfl, fun _ => rfl⟩
  case ldRegs x =>
    show ∃ k u, execLdRegs x s = _ ∧ _
    unfold execLdRegs
    split
    · rename_i bs _
      obtain ⟨v, hv⟩ := setRange_fields s bs 0
      exact ⟨.success, _, rfl, by rw [hv]; rfl, by simp⟩
    · exact ⟨_, s, rfl, rfl, fun _ => rfl⟩
  case drw x y n =>
    show ∃ k u, execDrw x y n s = _ ∧ _
    unfold execDrw
    split
    · exact ⟨.success, _, rfl, rfl, by simp⟩
    · exact ⟨_, s, rfl, rfl, fun _ => rfl⟩
  case errSys => exact ⟨_, s, rfl, rfl, fun _ => rfl⟩
  case errAlu => exact ⟨_, s, rfl, rfl, fun _ => rfl⟩
  case errE => exact ⟨_, s, rfl, rfl, fun _ => rfl⟩
  case errF => exact ⟨_, s, rfl, rfl, fun _ => rfl⟩
  all_goals exact ⟨.success, _, rfl, rfl, by simp⟩

/-- The word read at an address: its two bytes, high byte first (20_memory.md R43). -/
theorem memReadWord_eq_some {s : State} {a : Nat} {w : Word} :
    s.memReadWord a = some w ↔
      ∃ hi lo, s.memRead a = some hi ∧ s.memRead (a + 1) = some lo ∧ w = hi ++ lo := by
  unfold State.memReadWord
  split
  · rename_i hi lo h1 h2
    simp [h1, h2, eq_comm]
  · rename_i h
    simp only [reduceCtorEq, false_iff, not_exists, not_and]
    exact fun hi lo h1 h2 => (h hi lo h1 h2).elim

/-- When the fetch fails (R81). -/
theorem memReadWord_eq_none {s : State} {a : Nat} :
    s.memReadWord a = none ↔ s.cfg.addrPolicy = .fault ∧ 0xFFF < a + 1 := by
  have h1 : s.memRead a = none ↔ s.cfg.addrPolicy = .fault ∧ 0xFFF < a := by
    rw [State.memRead, Option.map_eq_none_iff, ea_eq_none]
  have h2 : s.memRead (a + 1) = none ↔ s.cfg.addrPolicy = .fault ∧ 0xFFF < a + 1 := by
    rw [State.memRead, Option.map_eq_none_iff, ea_eq_none]
  unfold State.memReadWord
  cases hb : s.memRead a with
  | none =>
    have := h1.mp hb
    simp only [true_iff]
    exact ⟨this.1, by omega⟩
  | some hi =>
    cases hc : s.memRead (a + 1) with
    | none => simpa using h2.mp hc
    | some lo =>
      have : ¬ (s.cfg.addrPolicy = .fault ∧ 0xFFF < a + 1) := fun h => by
        rw [h2.mpr h] at hc; cases hc
      simp only [reduceCtorEq, false_iff]
      exact this

/-- The state an instruction starts from: the word latched, `pc` advanced by 2 (R81). -/
def fetched (s : State) (w : Word) : State := { s with ir := w, pc := s.pc + 2 }

theorem fetch_some {s : State} {w : Word} (h : s.memReadWord s.pc.toNat = some w) :
    fetch s = some (fetched s w) := by
  unfold fetch fetched; rw [h]

theorem fetch_none {s : State} (h : s.memReadWord s.pc.toNat = none) : fetch s = none := by
  unfold fetch; rw [h]

/-- Before the first bootstrap there is no step (70_reset_and_hazards.md R235). -/
theorem step_of_not_booted {s : State} (h : s.booted = false) :
    step s = .refused .notBootstrapped := by
  unfold step
  rw [if_neg (by simp [h])]

theorem step_of_fetch {s u : State} {w : Word} (hb : s.booted = true)
    (h : s.memReadWord s.pc.toNat = some w)
    (he : exec (decodeWord w) (fetched s w) = .next u) : step s = .next u.nextInput := by
  have : (fetched s w).ir = w := rfl
  unfold step
  rw [if_pos hb, fetch_some h]
  simp only [this, he, afterStep]

theorem step_of_no_fetch {s : State} (hb : s.booted = true)
    (h : s.memReadWord s.pc.toNat = none) : step s = .next (fetchFailed s).nextInput := by
  unfold step
  rw [if_pos hb, fetch_none h]
  rfl

/-- Everything a step can do: it starts from a bootstrapped state, and either runs the instruction it
fetched or fails the fetch. -/
theorem step_cases {s t : State} (h : step s = .next t) :
    s.booted = true ∧
    ((∃ w k u, s.memReadWord s.pc.toNat = some w ∧
        exec (decodeWord w) (fetched s w) = .next (u.report k) ∧ t = (u.report k).nextInput ∧
        u = { fetched s w with v := u.v, pc := u.pc, I := u.I, sp := u.sp, stk := u.stk,
                               mem := u.mem, fb := u.fb } ∧
        (k ≠ .success → u = fetched s w)) ∨
      (s.memReadWord s.pc.toNat = none ∧ t = (fetchFailed s).nextInput)) := by
  cases hb : s.booted with
  | false => rw [step_of_not_booted hb] at h; cases h
  | true =>
    refine ⟨rfl, ?_⟩
    cases hw : s.memReadWord s.pc.toNat with
    | none =>
      rw [step_of_no_fetch hb hw] at h
      exact .inr ⟨rfl, (Host.Outcome.next.inj h).symm⟩
    | some w =>
      obtain ⟨k, u, he, hu, hk⟩ := exec_next (decodeWord w) (fetched s w)
      rw [step_of_fetch hb hw he] at h
      exact .inl ⟨w, k, u, rfl, he, (Host.Outcome.next.inj h).symm, hu, hk⟩

/-- The instruction the next step runs is the decoding of the word it fetches. -/
theorem instrAt_eq_some {s : State} {i : Instr} :
    s.instrAt = some i ↔ ∃ w, s.memReadWord s.pc.toNat = some w ∧ decodeWord w = i := by
  unfold State.instrAt
  rw [Option.map_eq_some_iff]

end Sys2Proof.Machine
end

