-- ==== Sys2Proof/Tests/Slice0.lean ====
section
/-! SUPPORT. The model's own tests: ill-formed terms, a written-out word for each constructor, one or
two single steps an instruction from spec/95_test_vectors.md (the vector is named in each docstring),
and for each statement with hypotheses states that meet them. -/

namespace Sys2Proof.Tests

open Sys2Proof Sys2Proof.Machine

/-! ### Helpers -/

/-- `r` is a next state of which `p` holds. -/
def yields (r : Result) (p : State → Bool) : Bool :=
  match r with
  | .next t => p t
  | _ => false

theorem exists_of_yields {r : Result} {p : State → Bool} (h : yields r p = true) :
    ∃ t, r = .next t ∧ p t = true := by
  cases r with
  | next t => exact ⟨t, rfl, h⟩
  | fault r => cases h
  | refused r => cases h

/-- `V[x] <- b` for each pair of a list. -/
def putRegs : List (Reg × Byte) → State → State
  | [], s => s
  | (x, b) :: rest, s => putRegs rest (s.setV x b)

/-- `M[a] <- b` for each pair of a list. -/
def putBytes : List (Nat × Byte) → State → State
  | [], s => s
  | (a, b) :: rest, s => putBytes rest (s.setMem (Memory.write s.cfg s.mem a b))

/-- The reset state with some registers, `I` and some bytes of memory set. -/
def start (v : List (Reg × Byte)) (i : Word) (m : List (Nat × Byte)) : State :=
  putBytes m (putRegs v (State.reset.setI i))

/-- `s` under other parameters. -/
def under (c : Config) (s : State) : State := { s with cfg := c }

/-- `s` with a stack of depth `d`, slot `k` holding `0x300 + k`. -/
def deep (d : Fin 17) (s : State) : State :=
  s.setStack d (Vector.ofFn fun k => BitVec.ofNat 16 (0x300 + k.val))

/-- `s` with the pixels of a list on. -/
def lit (ps : List (Nat × Nat)) (s : State) : State :=
  s.setFb (ps.foldl (fun f p => Framebuffer.flip s.cfg f p.1 p.2) [])

/-- One step on the word `w` placed at `pc`. -/
def run (s : State) (w : Nat) : Result := step (s.withFetchWord 16 w)

abbrev cfgVy : Config := { Config.default with shiftSource := .vy }
abbrev cfgAdvance : Config := { Config.default with ldstIMode := .advance }
abbrev cfgFault : Config := { Config.default with addrPolicy := .fault }
abbrev cfgIgnore : Config := { Config.default with fontWrite := .ignore }
abbrev cfgFontFault : Config := { Config.default with fontWrite := .fault }

/-! ### Well-formedness: one ill-formed term for each check -/

theorem test_wf_refuses_errSys_00E0 : ¬ (Instr.errSys 0x0E0).WellFormed := by decide
theorem test_wf_refuses_errSys_00EE : ¬ (Instr.errSys 0x0EE).WellFormed := by decide
theorem test_wf_refuses_errAlu_4 : ¬ (Instr.errAlu 1 2 0x4).WellFormed := by decide
theorem test_wf_refuses_errAlu_E : ¬ (Instr.errAlu 1 2 0xE).WellFormed := by decide
theorem test_wf_refuses_errF_33 : ¬ (Instr.errF 3 0x33).WellFormed := by decide

/-! ### Decoding: a word for each constructor, written out from 30_encoding.md R62 to R69 -/

theorem test_decode_00E0 : decode [0x00, 0xE0] = .ok (.cls, []) := by rfl
theorem test_decode_00EE : decode [0x00, 0xEE] = .ok (.ret, []) := by rfl
theorem test_decode_1234 : decode [0x12, 0x34] = .ok (.jp 0x234, []) := by rfl
theorem test_decode_2210 : decode [0x22, 0x10] = .ok (.call 0x210, []) := by rfl
theorem test_decode_3342 : decode [0x33, 0x42] = .ok (.seImm 3 0x42, []) := by rfl
theorem test_decode_4342 : decode [0x43, 0x42] = .ok (.sneImm 3 0x42, []) := by rfl
theorem test_decode_512F : decode [0x51, 0x2F] = .ok (.seReg 1 2 0xF, []) := by rfl
theorem test_decode_6A7B : decode [0x6A, 0x7B] = .ok (.ldImm 10 0x7B, []) := by rfl
theorem test_decode_71FF : decode [0x71, 0xFF] = .ok (.addImm 1 0xFF, []) := by rfl
theorem test_decode_8120 : decode [0x81, 0x20] = .ok (.ldReg 1 2, []) := by rfl
theorem test_decode_8121 : decode [0x81, 0x21] = .ok (.orReg 1 2, []) := by rfl
theorem test_decode_8122 : decode [0x81, 0x22] = .ok (.andReg 1 2, []) := by rfl
theorem test_decode_8123 : decode [0x81, 0x23] = .ok (.xorReg 1 2, []) := by rfl
theorem test_decode_8124 : decode [0x81, 0x24] = .ok (.addReg 1 2, []) := by rfl
theorem test_decode_8125 : decode [0x81, 0x25] = .ok (.sub 1 2, []) := by rfl
theorem test_decode_8126 : decode [0x81, 0x26] = .ok (.shr 1 2, []) := by rfl
theorem test_decode_8127 : decode [0x81, 0x27] = .ok (.subn 1 2, []) := by rfl
theorem test_decode_812E : decode [0x81, 0x2E] = .ok (.shl 1 2, []) := by rfl
theorem test_decode_9123 : decode [0x91, 0x23] = .ok (.sneReg 1 2 0x3, []) := by rfl
theorem test_decode_A300 : decode [0xA3, 0x00] = .ok (.ldI 0x300, []) := by rfl
theorem test_decode_B206 : decode [0xB2, 0x06] = .ok (.jpV0 0x206, []) := by rfl
theorem test_decode_C30F : decode [0xC3, 0x0F] = .ok (.rnd 3 0x0F, []) := by rfl
theorem test_decode_D015 : decode [0xD0, 0x15] = .ok (.drw 0 1 0x5, []) := by rfl
theorem test_decode_F31E : decode [0xF3, 0x1E] = .ok (.addI 3, []) := by rfl
theorem test_decode_F229 : decode [0xF2, 0x29] = .ok (.ldF 2, []) := by rfl
theorem test_decode_FA33 : decode [0xFA, 0x33] = .ok (.ldB 10, []) := by rfl
theorem test_decode_F155 : decode [0xF1, 0x55] = .ok (.stRegs 1, []) := by rfl
theorem test_decode_F265 : decode [0xF2, 0x65] = .ok (.ldRegs 2, []) := by rfl
theorem test_decode_0123 : decode [0x01, 0x23] = .ok (.errSys 0x123, []) := by rfl
theorem test_decode_812F : decode [0x81, 0x2F] = .ok (.errAlu 1 2 0xF, []) := by rfl
theorem test_decode_E19E : decode [0xE1, 0x9E] = .ok (.errE 0x19E, []) := by rfl
theorem test_decode_F30A : decode [0xF3, 0x0A] = .ok (.errF 3 0x0A, []) := by rfl
theorem test_decode_truncated : decode [0x61] = .error .truncated := by rfl

/-- The host's two questions on one row. -/
theorem test_decodeTableWord : decodeTableWord 16 0xD015 = some (.drw 0 1 0x5) := by rfl
theorem test_encode_8124 : encode (.addReg 1 2) = 0x8124 := by decide

/-! ### Fetch (vectors K) -/

/-- K2: the fetch wraps, `pc` does not. -/
theorem test_K2_fetch_wraps : yields (step ((start [] 0 [(0xFFF, 0x61), (0x000, 0x23)]).setPc 0xFFF))
    (fun t => t.getV 1 = 0x23 ∧ t.pc = 0x1001 ∧ t.status = some ⟨.success, 0x6123⟩) = true := by
  decide

/-- K4. -/
theorem test_K4_fetch_fails : yields (step (under cfgFault (State.reset.setPc 0xFFF)))
    (fun t => t.pc = 0xFFF ∧ t.status = some ⟨.invalidMemoryAccess, 0x0000⟩) = true := by decide

/-- K6: no alignment check. -/
theorem test_K6_odd_pc : yields (run (State.reset.setPc 0x201) 0x6123)
    (fun t => t.getV 1 = 0x23 ∧ t.pc = 0x203) = true := by decide

/-! ### Error classes (vectors X) -/

/-- X2. -/
theorem test_X2 : yields (run State.reset 0x0123)
    (fun t => t.pc = 0x202 ∧ t.status = some ⟨.invalidInstruction, 0x0123⟩) = true := by decide

/-- X4. -/
theorem test_X4 : yields (run (start [(1, 0x12), (15, 0x34)] 0 []) 0x812F)
    (fun t => t.getV 1 = 0x12 ∧ t.getV 15 = 0x34 ∧ t.pc = 0x202 ∧
      t.status = some ⟨.invalidInstruction, 0x812F⟩) = true := by decide

/-- X6. -/
theorem test_X6 : yields (run State.reset 0xE19E)
    (fun t => t.pc = 0x202 ∧ t.status = some ⟨.unknownInstruction, 0xE19E⟩) = true := by decide

/-- X8. -/
theorem test_X8 : yields (run State.reset 0xF30A)
    (fun t => t.pc = 0x202 ∧ t.status = some ⟨.invalidInstruction, 0xF30A⟩) = true := by decide

/-! ### Control transfer (vectors F) -/

/-- F1. -/
theorem test_F1_cls : yields (run (lit [(0, 0), (63, 31)] State.reset) 0x00E0)
    (fun t => t.fb = [] ∧ t.pc = 0x202) = true := by decide

/-- F3. -/
theorem test_F3_jp_odd : yields (run State.reset 0x1203) (fun t => t.pc = 0x203) = true := by decide

/-- F4. -/
theorem test_F4_call : yields (run (State.reset.setPc 0x204) 0x2210)
    (fun t => t.stk[0] = 0x206 ∧ t.sp = 1 ∧ t.pc = 0x210) = true := by decide

/-- F7. -/
theorem test_F7_call_full : yields (run (deep 16 State.reset) 0x2400)
    (fun t => t.pc = 0x202 ∧ t.sp = 16 ∧ t.stk[15] = 0x30F ∧
      t.status = some ⟨.invalidStackOperation, 0x2400⟩) = true := by decide

/-- F5. -/
theorem test_F5_ret : yields (run (deep 1 State.reset) 0x00EE)
    (fun t => t.sp = 0 ∧ t.pc = 0x300) = true := by decide

/-- F6. -/
theorem test_F6_ret_empty : yields (run State.reset 0x00EE)
    (fun t => t.sp = 0 ∧ t.pc = 0x202 ∧ t.status = some ⟨.invalidStackOperation, 0x00EE⟩) = true := by
  decide

/-- F8. -/
theorem test_F8_se_skips : yields (run (start [(3, 0x42)] 0 []) 0x3342)
    (fun t => t.pc = 0x204) = true := by decide

/-- F9. -/
theorem test_F9_se_goes_on : yields (run (start [(3, 0x41)] 0 []) 0x3342)
    (fun t => t.pc = 0x202) = true := by decide

/-- F10. -/
theorem test_F10_sne_skips : yields (run (start [(3, 0x41)] 0 []) 0x4342)
    (fun t => t.pc = 0x204) = true := by decide

/-- F11. -/
theorem test_F11_sne_goes_on : yields (run (start [(3, 0x42)] 0 []) 0x4342)
    (fun t => t.pc = 0x202) = true := by decide

/-- F13. -/
theorem test_F13_se_ignores_n : yields (run (start [(1, 0x07), (2, 0x07)] 0 []) 0x512F)
    (fun t => t.pc = 0x204) = true := by decide

/-- F14. -/
theorem test_F14_se_goes_on : yields (run (start [(1, 0x07), (2, 0x08)] 0 []) 0x5120)
    (fun t => t.pc = 0x202) = true := by decide

/-- F15. -/
theorem test_F15_sne_skips : yields (run (start [(1, 0x07), (2, 0x08)] 0 []) 0x9120)
    (fun t => t.pc = 0x204) = true := by decide

/-- F16. -/
theorem test_F16_sne_goes_on : yields (run (start [(1, 0x07), (2, 0x07)] 0 []) 0x9123)
    (fun t => t.pc = 0x202) = true := by decide

/-- F18: the sum passes 12 bits. -/
theorem test_F18_jpV0 : yields (run (start [(0, 0xFF)] 0 []) 0xBFFF)
    (fun t => t.pc = 0x10FE) = true := by decide

/-! ### ALU (vectors A) -/

/-- A2. -/
theorem test_A2_ld_vf : yields (run (start [(15, 0x05)] 0 []) 0x6F00)
    (fun t => t.getV 15 = 0x00 ∧ t.pc = 0x202) = true := by decide

/-- A3. -/
theorem test_A3_add_imm : yields (run (start [(1, 0xFF), (15, 0x07)] 0 []) 0x7102)
    (fun t => t.getV 1 = 0x01 ∧ t.getV 15 = 0x07) = true := by decide

/-- A5. -/
theorem test_A5_ld : yields (run (start [(1, 0x11), (2, 0x22), (15, 0x09)] 0 []) 0x8120)
    (fun t => t.getV 1 = 0x22 ∧ t.getV 15 = 0x09) = true := by decide

/-- A6. -/
theorem test_A6_or : yields (run (start [(1, 0x0C), (2, 0x0A), (15, 0x09)] 0 []) 0x8121)
    (fun t => t.getV 1 = 0x0E ∧ t.getV 15 = 0x09) = true := by decide

/-- A7. -/
theorem test_A7_and : yields (run (start [(1, 0x0C), (2, 0x0A), (15, 0x09)] 0 []) 0x8122)
    (fun t => t.getV 1 = 0x08 ∧ t.getV 15 = 0x09) = true := by decide

/-- A8. -/
theorem test_A8_xor : yields (run (start [(1, 0x0C), (2, 0x0A), (15, 0x09)] 0 []) 0x8123)
    (fun t => t.getV 1 = 0x06 ∧ t.getV 15 = 0x09) = true := by decide

/-- A14: the flag replaces the sum. -/
theorem test_A14_add_vf : yields (run (start [(1, 0x80), (15, 0x80)] 0 []) 0x8F14)
    (fun t => t.getV 15 = 0x01) = true := by decide

/-- A15: the old VF is read. -/
theorem test_A15_add_reads_vf : yields (run (start [(1, 0x01), (15, 0x03)] 0 []) 0x81F4)
    (fun t => t.getV 1 = 0x04 ∧ t.getV 15 = 0x00) = true := by decide

/-- A17. -/
theorem test_A17_sub_borrow : yields (run (start [(1, 0x10), (2, 0x20)] 0 []) 0x8125)
    (fun t => t.getV 1 = 0xF0 ∧ t.getV 15 = 0x00) = true := by decide

/-- A18. -/
theorem test_A18_sub_equal : yields (run (start [(1, 0x33), (2, 0x33)] 0 []) 0x8125)
    (fun t => t.getV 1 = 0x00 ∧ t.getV 15 = 0x01) = true := by decide

/-- A20. -/
theorem test_A20_subn : yields (run (start [(1, 0x10), (2, 0x20)] 0 []) 0x8127)
    (fun t => t.getV 1 = 0x10 ∧ t.getV 15 = 0x01) = true := by decide

/-- A21. -/
theorem test_A21_subn_borrow : yields (run (start [(1, 0x20), (2, 0x10)] 0 []) 0x8127)
    (fun t => t.getV 1 = 0xF0 ∧ t.getV 15 = 0x00) = true := by decide

/-- A22. -/
theorem test_A22_shr_vx : yields (run (start [(1, 0x05), (2, 0x80)] 0 []) 0x8126)
    (fun t => t.getV 1 = 0x02 ∧ t.getV 15 = 0x01) = true := by decide

/-- A23. -/
theorem test_A23_shr_vy : yields (run (under cfgVy (start [(1, 0x05), (2, 0x80)] 0 [])) 0x8126)
    (fun t => t.getV 1 = 0x40 ∧ t.getV 2 = 0x80 ∧ t.getV 15 = 0x00) = true := by decide

/-- A26. -/
theorem test_A26_shl_vx : yields (run (start [(1, 0xF0), (2, 0x01)] 0 []) 0x812E)
    (fun t => t.getV 1 = 0xE0 ∧ t.getV 15 = 0x01) = true := by decide

/-- A27. -/
theorem test_A27_shl_vy : yields (run (under cfgVy (start [(1, 0xF0), (2, 0x01)] 0 [])) 0x812E)
    (fun t => t.getV 1 = 0x02 ∧ t.getV 15 = 0x00) = true := by decide

/-- A30. -/
theorem test_A30_rnd : yields (run (State.reset.withRnd 0xA7) 0xC30F)
    (fun t => t.getV 3 = 0x07 ∧ t.pc = 0x202) = true := by decide

/-! ### Index register and memory (vectors M) -/

/-- M1. -/
theorem test_M1_ldI : yields (run State.reset 0xA300) (fun t => t.I = 0x300) = true := by decide

/-- M4. -/
theorem test_M4_addI_overflow : yields (run (start [(3, 0x01)] 0xFFF []) 0xF31E)
    (fun t => t.I = 0x000 ∧ t.getV 15 = 0x01) = true := by decide

/-- M5: no overflow, VF stays. -/
theorem test_M5_addI : yields (run (start [(3, 0x01), (15, 0x07)] 0xFFE []) 0xF31E)
    (fun t => t.I = 0xFFF ∧ t.getV 15 = 0x07) = true := by decide

/-- M10. -/
theorem test_M10_ldF : yields (run (start [(2, 0x1A)] 0 []) 0xF229) (fun t => t.I = 0x082) = true := by
  decide

/-- M13. -/
theorem test_M13_ldB : yields (run (start [(0, 0xFF)] 0x300 []) 0xF033)
    (fun t => t.byteAt 0x300 = 2 ∧ t.byteAt 0x301 = 5 ∧ t.byteAt 0x302 = 5 ∧ t.I = 0x300) = true := by
  decide

/-- M24: nothing is stored, not even at 0xFFF. -/
theorem test_M24_ldB_fault :
    yields (run (under cfgFault (start [(0, 0xFF)] 0xFFF [(0xFFF, 0x55)])) 0xF033)
    (fun t => t.byteAt 0xFFF = 0x55 ∧ t.pc = 0x202 ∧
      t.status = some ⟨.invalidMemoryAccess, 0xF033⟩) = true := by decide

/-- M16. -/
theorem test_M16_stRegs_advance :
    yields (run (under cfgAdvance (start [(0, 0x01), (1, 0x02)] 0x300 [])) 0xF155)
    (fun t => t.byteAt 0x300 = 1 ∧ t.byteAt 0x301 = 2 ∧ t.byteAt 0x302 = 0 ∧ t.I = 0x302) = true := by
  decide

/-- M22. -/
theorem test_M22_stRegs_ignore : yields (run (under cfgIgnore (start [(0, 0xAA)] 0x050 [])) 0xF055)
    (fun t => t.byteAt 0x050 = 0xF0 ∧ t.status = some ⟨.success, 0xF055⟩) = true := by decide

/-- M18. -/
theorem test_M18_ldRegs :
    yields (run (start [(3, 0x44)] 0x300 [(0x300, 1), (0x301, 2), (0x302, 3)]) 0xF265)
    (fun t => t.getV 0 = 1 ∧ t.getV 1 = 2 ∧ t.getV 2 = 3 ∧ t.getV 3 = 0x44 ∧ t.I = 0x300) = true := by
  decide

/-- M26: in range under `fault`. -/
theorem test_M26_ldRegs_edge :
    yields (run (under cfgFault (start [] 0xFFE [(0xFFE, 7), (0xFFF, 8)])) 0xF165)
    (fun t => t.getV 0 = 7 ∧ t.getV 1 = 8 ∧ t.status = some ⟨.success, 0xF165⟩) = true := by decide

/-! ### Display (vectors D) -/

/-- D4: clipped right and bottom. -/
theorem test_D4_clip :
    yields (run (start [(0, 0x3E), (1, 0x1F), (15, 7)] 0x300 [(0x300, 0xFF), (0x301, 0xFF)]) 0xD012)
    (fun t => t.fb = [(31 * 64 + 62, true), (31 * 64 + 63, true)] ∧ t.getV 15 = 0) = true := by decide

/-- D2: the pixel goes off, collision. -/
theorem test_D2_collides :
    yields (run (lit [(0, 0)] (start [(15, 0x07)] 0x300 [(0x300, 0x80)])) 0xD011)
    (fun t => t.pixel 0 0 = false ∧ t.getV 15 = 1) = true := by decide

/-! ### Boot (vectors B) -/

/-- B1, E7. -/
theorem test_B1_bootstrap :
    ((bootstrap [0x00, 0xE0] (deep 3 (lit [(1, 1)] State.reset))).2.byteAt 0x201 = 0xE0 ∧
     (bootstrap [0x00, 0xE0] (deep 3 State.reset)).2.byteAt 0x09B = 0xF0 ∧
     (bootstrap [0x00, 0xE0] (deep 3 State.reset)).2.sp = 0) := by decide

/-- R235: no step before the first bootstrap, and a step after it. -/
theorem test_no_step_before_bootstrap :
    step { State.reset with booted := false } = .refused .notBootstrapped ∧
    yields (step (bootstrap [0x6A, 0x7B] { State.reset with booted := false }).2)
      (fun t => t.getV 10 = 0x7B) = true := ⟨rfl, by decide⟩

/-! ### Witnesses: for each statement with hypotheses, states and operands that meet them, at the
boundary values of its clauses -/

theorem witness_DecodeReadsBackEveryEncoding :
    (Instr.jp 0xFFF).WellFormed ∧ (Instr.errAlu 15 15 0xF).WellFormed := by decide

theorem witness_EveryWordIsOneInstruction :
    (Instr.errSys 0xFFF).WellFormed ∧ encode (.errSys 0xFFF) = 0x0FFF := by decide

/-- The words of the clauses keyed on the leading nibble. -/
theorem witness_words_by_category :
    (0x1FFF : Word).extractLsb' 12 4 = 0x1#4 ∧ (0x2FFF : Word).extractLsb' 12 4 = 0x2#4 ∧
    (0x3FFF : Word).extractLsb' 12 4 = 0x3#4 ∧ (0x4FFF : Word).extractLsb' 12 4 = 0x4#4 ∧
    (0x5FFF : Word).extractLsb' 12 4 = 0x5#4 ∧ (0x6FFF : Word).extractLsb' 12 4 = 0x6#4 ∧
    (0x7FFF : Word).extractLsb' 12 4 = 0x7#4 ∧ (0x9FFF : Word).extractLsb' 12 4 = 0x9#4 ∧
    (0xAFFF : Word).extractLsb' 12 4 = 0xA#4 ∧ (0xBFFF : Word).extractLsb' 12 4 = 0xB#4 ∧
    (0xCFFF : Word).extractLsb' 12 4 = 0xC#4 ∧ (0xDFFF : Word).extractLsb' 12 4 = 0xD#4 := by decide

/-- The words of the clauses keyed on the last nibble too. -/
theorem witness_words_of_8 : ∀ k ∈ [0x0#4, 0x1#4, 0x2#4, 0x3#4, 0x4#4, 0x5#4, 0x6#4, 0x7#4, 0xE#4],
    (encFXY 0x8 15 15 k).extractLsb' 12 4 = 0x8#4 ∧ (encFXY 0x8 15 15 k).extractLsb' 0 4 = k := by
  decide

/-- The words of the clauses keyed on the last byte too. -/
theorem witness_words_of_F : ∀ k ∈ [0x1E#8, 0x29#8, 0x33#8, 0x55#8, 0x65#8],
    (encFXI 0xF 15 k).extractLsb' 12 4 = 0xF#4 ∧ (encFXI 0xF 15 k).extractLsb' 0 8 = k := by decide

theorem witness_RetPopsIntoPcOrUnderflows :
    0 < (deep 1 State.reset).sp.val ∧ 0 < (deep 16 State.reset).sp.val ∧ State.reset.sp.val = 0 := by
  decide

/-- Also for `ReturnGoesAfterTheCall` and the clauses of `PushPopPeekFollowTheirRules`. -/
theorem witness_CallPushesPcOrOverflows :
    State.reset.sp.val < 16 ∧ (deep 15 State.reset).sp.val < 16 ∧
    (deep 16 State.reset).sp.val = 16 := by decide

theorem witness_ReturnGoesAfterTheCall :
    let t := deep 16 State.reset
    let u := (start [(0, 1)] 0x300 [(0x300, 5)]).setStack t.sp t.stk
    u.sp = t.sp ∧ u.stk = t.stk ∧ u.v ≠ t.v := by decide

/-- Both outcomes of both tests, at an address where `pc + 2` wraps. -/
theorem witness_ImmediateSkips :
    let s := start [(3, 0x42)] 0 []
    s.getV 3 = 0x42 ∧ s.getV 3 ≠ 0x41 ∧ (s.setPc 0xFFFE).getV 3 = 0x42 := by decide

theorem witness_RegisterSkips :
    let s := start [(1, 7), (2, 7), (3, 8)] 0 []
    s.getV 1 = s.getV 2 ∧ s.getV 1 ≠ s.getV 3 := by decide

theorem witness_PushesPopInReverse :
    State.reset.sp.val + (List.replicate 16 (0x300 : Word)).length = 16 ∧
    (deep 16 State.reset).sp.val + ([] : List Word).length = 16 ∧
    (deep 3 State.reset).sp.val + [(0x200 : Word), 0x202].length ≤ 16 := by decide

/-- Sums of 256 and of 255, with a destination that is not VF. -/
theorem witness_AddRegSetsCarry :
    let s := start [(1, 0xFF), (2, 0x01), (3, 0x00)] 0 []
    (1 : Reg) ≠ vf ∧ 255 < (s.getV 1).toNat + (s.getV 2).toNat ∧
    (s.getV 1).toNat + (s.getV 3).toNat ≤ 255 := by decide

/-- Equal operands and a difference of 1 either way. -/
theorem witness_SubtractsSetNotBorrow :
    let s := start [(1, 0x33), (2, 0x33), (3, 0x34)] 0 []
    (1 : Reg) ≠ vf ∧ (s.getV 2).toNat ≤ (s.getV 1).toNat ∧ (s.getV 1).toNat < (s.getV 3).toNat := by
  decide

theorem witness_ShiftsSetTheBitShiftedOut :
    let s := start [(1, 0x05), (2, 0x80)] 0 []
    (1 : Reg) ≠ vf ∧ (s.cfg.shiftSource = .vx ∧ (0x05 : Byte) = s.getV 1) ∧
    ((under cfgVy s).cfg.shiftSource = .vy ∧ (0x80 : Byte) = (under cfgVy s).getV 2) := by decide

/-- Sums of 0x1000 and of 0xFFF. -/
theorem witness_AddIWrapsAt4096 :
    let s := start [(3, 0x01)] 0xFFF []
    0xFFF < s.I.toNat + (s.getV 3).toNat ∧ s.I.toNat + (s.getV 0).toNat ≤ 0xFFF := by decide

/-- Legal parameters: the default, and a font that ends at the last address. -/
theorem witness_LdFPointsAtTheGlyph :
    State.reset.cfg.Legal ∧ Config.Legal { Config.default with fontBase := 4016 } := by decide

theorem witness_ReadsAllowed :
    ReadsAllowed (start [] 0xFFF []) 3 ∧ ReadsAllowed (under cfgFault (start [] 0xFFD [])) 3 ∧
    ¬ ReadsAllowed (under cfgFault (start [] 0xFFE [])) 3 := by
  unfold ReadsAllowed; decide

theorem witness_WritesAllowed_wrap : WritesAllowed (start [] 0xFFF []) 16 :=
  ⟨.inl rfl, fun h => by cases h⟩

theorem witness_WritesAllowed_fault : WritesAllowed (under cfgFault (start [] 0xFFD [])) 3 :=
  ⟨witness_ReadsAllowed.2.1, fun h => by cases h⟩

theorem witness_WritesAllowed_refused_font :
    ¬ WritesAllowed (under cfgFontFault (start [] 0x04F [])) 3 := fun h =>
  absurd (h.2 rfl 0x050 ⟨1, by decide, by decide⟩) (by decide)

/-- The clauses of the bytes of `LdBStoresThreeDigits` and `StRegsStoresV0ToVX`: a byte that lands, and
a byte that `FONT_WRITE = ignore` drops. -/
theorem witness_WriteLands :
    (2 < 3 ∧ ea Config.default ((start [] 0xFFF []).indexAddr 2) = some 0x001 ∧
      WriteLands (start [] 0xFFF []) 0x001) ∧
    (ea cfgIgnore ((under cfgIgnore (start [] 0x04E [])).indexAddr 2) = some 0x050 ∧
      ¬ WriteLands (under cfgIgnore (start [] 0x04E [])) 0x050) := by
  unfold WriteLands; decide

/-- Both settings of `LDST_I_MODE`, and registers at and past `x`. -/
theorem witness_StRegs_LdRegs_modes :
    State.reset.cfg.ldstIMode = .keep ∧ (under cfgAdvance State.reset).cfg.ldstIMode = .advance ∧
    (2 : Reg) ≤ 2 ∧ (2 : Reg) < 3 := by decide

theorem witness_ReadsResolveThroughEa :
    State.reset.cfg.addrPolicy = .wrap ∧ (under cfgFault State.reset).cfg.addrPolicy = .fault ∧
    0xFFE + 1 ≤ 0xFFF ∧ 0xFFF < 0xFFF + 1 := by decide

/-- An address in the font region and the first one after it. -/
theorem witness_WriteChangesOneByte :
    ea Config.default 0x0A0 = some 0x0A0 ∧ Config.inFont Config.default 0x0A0 = false ∧
    ea cfgFault 0x1000 = none ∧
    (ea cfgIgnore 0x09F = some 0x09F ∧ Config.inFont cfgIgnore 0x09F = true ∧
      cfgIgnore.fontWrite = .ignore) ∧
    (Config.inFont cfgFontFault 0x050 = true ∧ cfgFontFault.fontWrite = .fault) := by decide

theorem witness_SpansAreByteWise :
    (∀ k, k < 2 → 0xFFE + k ≤ 0xFFF) ∧ cfgFault.addrPolicy = .fault ∧ 1 < 2 ∧ 0xFFF < 0xFFF + 1 := by
  decide

theorem witness_CanonicalMemoryIsDeterminedByItsBytes :
    Memory.wf Config.default [(0x050, 0x00), (0x300, 0x01)] := by decide

/-- Also for `LdRegsLoadsV0ToVX`: `witness_ReadsAllowed`. -/
theorem witness_DrwXorsTheSprite :
    let s := start [(0, 62), (1, 31)] 0x300 [(0x300, 0x40)]
    SpriteCovers s.cfg (s.getV 0) (s.getV 1) [0x40] 63 31 ∧ s.pixel 63 31 = false ∧
    (lit [(63, 31)] s).pixel 63 31 = true :=
  ⟨⟨by decide, by decide, 0, 1, by decide, by decide, by decide, 0x40, rfl, by decide⟩,
    by decide, by decide⟩

/-- A place the sprite leaves alone. -/
theorem witness_DrwXorsTheSprite_uncovered : ¬ SpriteCovers Config.default 62 31 [0x40] 0 0 := by
  rintro ⟨-, -, r, b, -, hx, -⟩
  have : (62 : Byte).toNat % Config.default.displayW = 62 := by decide
  omega

theorem witness_DrawingTwiceRestores :
    Framebuffer.wf Config.default (lit [(63, 31), (0, 0)] State.reset).fb := by decide

/-- The state a step starts from: `0x6123` at 0x200. -/
theorem witness_StepRunsTheDecodedInstruction :
    let s := State.reset.withFetchWord 16 0x6123
    s.booted = true ∧ s.memRead s.pc.toNat = some 0x61 ∧ s.memRead (s.pc.toNat + 1) = some 0x23 ∧
    decode [0x61, 0x23] = .ok (.ldImm 1 0x23, []) ∧
    ∃ u, exec (.ldImm 1 0x23) { s with ir := (0x61 : Byte) ++ (0x23 : Byte), pc := s.pc + 2 } = .next u :=
  ⟨rfl, by decide, by decide, rfl, _, rfl⟩

theorem witness_FailedFetchIsReportedAndRepeats :
    let s := under cfgFault (State.reset.setPc 0xFFF)
    s.booted = true ∧ s.cfg.addrPolicy = .fault ∧ 0xFFF < s.pc.toNat + 1 := by decide

/-- Both clauses: a bootstrapped state, and one before the first bootstrap. -/
theorem witness_EveryStepReturnsOneStatus :
    State.reset.booted = true ∧ ({ State.reset with booted := false } : State).booted = false := by
  decide

/-- Steps that return each kind, for the statements about every step: Success, the decode errors, a
stack failure, a refused access, a failed fetch. -/
theorem witness_steps_of_each_kind :
    yields (run State.reset 0x6123) (fun t => t.status = some ⟨.success, 0x6123⟩) = true ∧
    yields (run State.reset 0xE000) (fun t => t.status = some ⟨.unknownInstruction, 0xE000⟩) = true ∧
    yields (run State.reset 0x8008) (fun t => t.status = some ⟨.invalidInstruction, 0x8008⟩) = true ∧
    yields (run State.reset 0x00EE) (fun t => t.status = some ⟨.invalidStackOperation, 0x00EE⟩) = true ∧
    yields (run (under cfgFault (start [] 0xFFF [])) 0xD002)
      (fun t => t.status = some ⟨.invalidMemoryAccess, 0xD002⟩) = true ∧
    yields (step (under cfgFault (State.reset.setPc 0xFFF)))
      (fun t => t.status = some ⟨.invalidMemoryAccess, 0x0000⟩) = true := by decide

theorem witness_FailingStepChangesOnlyPc :
    ∃ t, step (State.reset.withFetchWord 16 0x00EE) = .next t ∧
      t.status = some ⟨.invalidStackOperation, 0x00EE⟩ ∧
      StatusKind.invalidStackOperation ≠ StatusKind.success := by
  obtain ⟨t, h, hp⟩ := exists_of_yields (p := fun t => t.status = some ⟨.invalidStackOperation, 0x00EE⟩)
    (r := step (State.reset.withFetchWord 16 0x00EE)) (by decide)
  exact ⟨t, h, by simpa using hp, by decide⟩

theorem witness_InvalidMemoryAccess_default_policies :
    State.reset.cfg.addrPolicy = .wrap ∧ State.reset.cfg.fontWrite = .allow := by decide

theorem witness_HaltIdiomIsAFixedPoint :
    let s := State.reset.withFetchWord 16 0x1200
    s.booted = true ∧ s.memReadWord s.pc.toNat = some 0x1200 ∧ decodeWord 0x1200 = .jp 0x200 ∧
    s.pc.toNat = (0x200 : Addr).toNat := by decide

/-- A step of each statement that names the instruction at `pc`. -/
theorem witness_PcFollowsTheTable :
    (State.reset.withFetchWord 16 0x00EE).instrAt = some .ret ∧
    ∃ t, step (State.reset.withFetchWord 16 0x00EE) = .next t :=
  ⟨by decide, by obtain ⟨t, h, -, -⟩ := witness_FailingStepChangesOnlyPc; exact ⟨t, h⟩⟩

/-- An instruction that is none of `00EE`, `2NNN`, `00E0`, `DXYN`, `FX33`, `FX55`, `CXNN`. -/
theorem witness_Only_statements :
    (State.reset.withFetchWord 16 0x6123).instrAt = some (.ldImm 1 0x23) := by decide

theorem witness_OnlyFlagWritersAndNamersChangeVF :
    (State.reset.withFetchWord 16 0x6F01).instrAt = some (.ldImm vf 0x01) ∧
    yields (run State.reset 0x6F01) (fun t => t.getV vf ≠ State.reset.getV vf) = true := by decide

theorem witness_OnlyIndexWritersChangeI :
    State.reset.cfg.Legal ∧
    yields (run (under cfgAdvance State.reset) 0xF065) (fun t => t.I ≠ State.reset.I) = true := by decide

/-- Two states that differ in a slot at the depth, one call deep. -/
theorem witness_DeadStackSlotsAreUnobservable :
    let s := (deep 1 State.reset).withFetchWord 16 0x2400
    SameButDeadSlots s (s.setStack 1 (s.stk.set 1 0x999)) ∧ s.stk[1] ≠ 0x999 ∧
    yields (step s) (fun _ => true) = true := by
  refine ⟨⟨rfl, ?_⟩, by decide, by decide⟩
  decide

/-- A store over the instruction after it. -/
theorem witness_NextFetchSeesTheStore :
    let s := start [(0, 0x6A), (1, 0x7B)] 0x200 []
    1 ≤ (1 : Reg).val ∧ s.cfg.addrPolicy = .wrap ∧ s.cfg.fontWrite = .allow ∧
    s.I.toNat % 4096 = s.pc.toNat % 4096 ∧
    yields (exec (.stRegs 1) s) (fun t => t.byteAt 0x200 = 0x6A) = true := by decide

/-- A program region of two bytes: ROMs that fill it and that pass it by one. -/
theorem witness_Bootstrap_sizes :
    let c := { Config.default with progBase := 0xFFE }
    c.Legal ∧ [(0x12 : Byte), 0x00].length ≤ 4096 - c.progBase ∧
    4096 - c.progBase < [(0x12 : Byte), 0x00, 0x00].length := by decide

/-- The clauses of `BootstrapGivesTheResetTable` on one ROM byte: inside it, in the font, elsewhere. -/
theorem witness_BootstrapGivesTheResetTable :
    [(0x12 : Byte)][0]? = some 0x12 ∧
    Config.default.fontBase + 79 < Config.default.progBase ∧
    (0x0A0 < Config.default.fontBase ∨ Config.default.fontBase + 80 ≤ 0x0A0) ∧
    0x0A0 < Config.default.progBase := by decide

theorem witness_BootstrapIsIdempotent :
    (deep 3 (lit [(1, 1)] State.reset)).cfg = State.reset.cfg := by decide

/-- Both clauses: legal parameters, and a state one step after a bootstrap. -/
theorem witness_BootstrapMeetsTheInvariant :
    State.reset.cfg.Legal ∧ ∃ t, step (bootstrap [0x12, 0x00] State.reset).2 = .next t ∧ t.Reached := by
  obtain ⟨t, h, -⟩ := exists_of_yields (p := fun _ => true)
    (r := step (bootstrap [0x12, 0x00] State.reset).2) (by decide)
  exact ⟨by decide, t, h, .step _ _ (.bootstrap _ _ (by decide)) h⟩

theorem witness_EveryStepKeepsTheInvariant : State.reset.Inv ∧ yields (step State.reset) (fun _ => true) = true :=
  ⟨⟨by decide, by decide, by decide, by decide, by decide, rfl⟩, by decide⟩

end Sys2Proof.Tests
end

/-! PROOFS. The statement of 00_scope.md: the input byte of a step reaches `CXNN` alone (R13). The key
fact is `afterStep_exec_withRnd`: the answer of any other instruction, its pending input byte replaced
as a step does it, is the same for every supplied byte. -/

namespace Sys2Proof.Machine

variable {s : State} {i : Instr}

/-! ### The named operations do not read the input byte -/

@[simp] theorem spanRead_withRnd (b : Byte) (a n : Nat) :
    (s.withRnd b).spanRead a n = s.spanRead a n := by
  induction n generalizing a with
  | zero => rfl
  | succ n ih =>
    have hb : (s.withRnd b).memRead a = s.memRead a := rfl
    rw [State.spanRead, State.spanRead, hb, ih]

theorem memWrite_withRnd (b v : Byte) (a : Nat) :
    (s.withRnd b).memWrite a v = (s.memWrite a v).map (·.withRnd b) := by
  unfold State.memWrite
  rw [withRnd_cfg]
  cases ea s.cfg a with
  | none => rfl
  | some e =>
    cases hf : Config.inFont s.cfg e with
    | false => simp only [hf]; rfl
    | true => simp only [hf]; cases s.cfg.fontWrite <;> rfl

theorem spanWrite_withRnd (b : Byte) (a : Nat) (bs : List Byte) :
    State.spanWrite a bs (s.withRnd b) = (State.spanWrite a bs s).map (·.withRnd b) := by
  induction bs generalizing s a with
  | nil => rfl
  | cons v bs ih =>
    rw [State.spanWrite, State.spanWrite, memWrite_withRnd]
    cases s.memWrite a v with
    | none => rfl
    | some t => exact ih (a + 1)

theorem setRange_withRnd (b : Byte) (bs : List Byte) (k : Nat) :
    State.setRange k bs (s.withRnd b) = (State.setRange k bs s).withRnd b := by
  induction bs generalizing s k with
  | nil => rfl
  | cons v bs ih =>
    rw [State.setRange, State.setRange, ← ih]
    split <;> rfl

/-! ### Instructions -/

theorem afterStep_skipIf_withRnd (b : Byte) (c : Bool) :
    afterStep (done ((s.withRnd b).skipIf c)) = afterStep (done (s.skipIf c)) := by
  cases c <;> rfl

/-- Noninterference for one instruction: `CXNN` aside, no arm of `exec` reads the input byte, and what
a step does after the arm overwrites it. -/
theorem afterStep_exec_withRnd (hi : ∀ x nn, i ≠ .rnd x nn) (b : Byte) :
    afterStep (exec i (s.withRnd b)) = afterStep (exec i s) := by
  cases i
  case rnd x nn => exact absurd rfl (hi x nn)
  case ret =>
    rcases Nat.eq_zero_or_pos s.sp.val with h | h
    · rw [exec_ret_empty h, exec_ret_empty (s := s.withRnd b) h]; rfl
    · rw [exec_ret_ok h, exec_ret_ok (s := s.withRnd b) h]; rfl
  case call nnn =>
    rcases Nat.lt_or_ge s.sp.val 16 with h | h
    · rw [exec_call_ok nnn h, exec_call_ok (s := s.withRnd b) nnn h]; rfl
    · have h : s.sp.val = 16 := by omega
      rw [exec_call_full nnn h, exec_call_full (s := s.withRnd b) nnn h]; rfl
  case seImm => exact afterStep_skipIf_withRnd b _
  case sneImm => exact afterStep_skipIf_withRnd b _
  case seReg => exact afterStep_skipIf_withRnd b _
  case sneReg => exact afterStep_skipIf_withRnd b _
  case addI x =>
    rcases Nat.lt_or_ge 0xFFF (s.I.toNat + (s.getV x).toNat) with h | h
    · rw [exec_addI_overflow h, exec_addI_overflow (s := s.withRnd b) h]; rfl
    · rw [exec_addI_in_range h, exec_addI_in_range (s := s.withRnd b) h]; rfl
  case ldB x =>
    have hb := spanWrite_withRnd (s := s) b (s.indexAddr 0) (decimalDigits (s.getV x))
    cases h : State.spanWrite (s.indexAddr 0) (decimalDigits (s.getV x)) s with
    | none => rw [h] at hb; rw [exec_ldB_none h, exec_ldB_none hb]; rfl
    | some t => rw [h] at hb; rw [exec_ldB_ok h, exec_ldB_ok hb]; rfl
  case stRegs x =>
    have hb := spanWrite_withRnd (s := s) b (s.indexAddr 0) (s.regsUpTo x)
    cases h : State.spanWrite (s.indexAddr 0) (s.regsUpTo x) s with
    | none => rw [h] at hb; rw [exec_stRegs_none h, exec_stRegs_none hb]; rfl
    | some t => rw [h] at hb; rw [exec_stRegs_ok h, exec_stRegs_ok hb]; rfl
  case ldRegs x =>
    have hb := spanRead_withRnd (s := s) b (s.indexAddr 0) (x.val + 1)
    cases h : s.spanRead (s.indexAddr 0) (x.val + 1) with
    | none => rw [h] at hb; rw [exec_ldRegs_none h, exec_ldRegs_none hb]; rfl
    | some bs => rw [h] at hb; rw [exec_ldRegs_ok h, exec_ldRegs_ok hb, setRange_withRnd]; rfl
  case drw x y n =>
    have hb := spanRead_withRnd (s := s) b (s.indexAddr 0) n.toNat
    cases h : s.spanRead (s.indexAddr 0) n.toNat with
    | none => rw [h] at hb; rw [exec_drw_none h, exec_drw_none hb]; rfl
    | some rows => rw [h] at hb; rw [exec_drw_ok h, exec_drw_ok hb]; rfl
  all_goals rfl

/-! ### Steps -/

/-- The step that fetches `w`, as one equation: `step_of_fetch` with the answer of `exec` left open. -/
theorem step_eq_afterStep_exec {w : Word} (hs : s.booted = true)
    (h : s.memReadWord s.pc.toNat = some w) :
    step s = afterStep (exec (decodeWord w) (fetched s w)) := by
  obtain ⟨k, u, he, -, -⟩ := exec_next (decodeWord w) (fetched s w)
  rw [step_of_fetch hs h he, he, afterStep]

theorem step_withRnd (hi : ∀ x nn, s.instrAt ≠ some (.rnd x nn)) (b : Byte) :
    step (s.withRnd b) = step s := by
  cases hs : s.booted with
  | false => rw [step_of_not_booted hs, step_of_not_booted (s := s.withRnd b) hs]
  | true =>
    cases h : s.memReadWord s.pc.toNat with
    | none => rw [step_of_no_fetch hs h, step_of_no_fetch (s := s.withRnd b) hs h]; rfl
    | some w =>
      have hw : ∀ x nn, decodeWord w ≠ .rnd x nn := fun x nn e =>
        hi x nn (instrAt_eq_some.mpr ⟨w, h, e⟩)
      rw [step_eq_afterStep_exec hs h, step_eq_afterStep_exec (s := s.withRnd b) hs h]
      exact afterStep_exec_withRnd (s := fetched s w) hw b

/-- Settles O51: whatever byte is supplied, the step is the one from `s` itself (`step_withRnd`). -/
theorem onlyRndReadsTheInputByte : Obligations.OnlyRndReadsTheInputByte := by
  intro s a b hi
  rw [step_withRnd hi a, step_withRnd hi b]

end Sys2Proof.Machine

/-! PROOFS. The statements of 10_state.md: the stack and its dead slots, `pc`, VF, `I`, the invariant and
bootstrap. A statement about every step is read off one lemma about `exec`, which splits along the
instructions: `exec_setStack` (the stack is neither read nor written), `exec_pc`, `exec_vf`, `exec_index`
and `exec_wf`. -/

namespace Sys2Proof.Machine

variable {s t : State} {i : Instr}

/-! ### The stack operations (10_state.md R28 to R30) -/

/-- Settles O12: each clause is the law of its operation (`push_ok` to `peek_empty`). -/
theorem pushPopPeekFollowTheirRules : Obligations.PushPopPeekFollowTheirRules := by
  intro s a
  refine ⟨fun h => ⟨_, push_ok a h, rfl, ?_, ?_, rfl⟩, push_full a,
    fun h => ⟨⟨_, pop_ok h, rfl, rfl⟩, peek_ok h⟩, fun h => ⟨pop_empty h, peek_empty h⟩⟩
  · exact Vector.getElem_set_self h
  · intro k hk
    exact Vector.getElem_set_ne h _ (Ne.symm hk)

/-- The slots from `d` on hold the addresses `as`. -/
def HoldsFrom (d : Nat) (as : List Word) (k : Vector Word 16) : Prop :=
  ∀ j, j < as.length → k[d + j]? = as[j]?

/-- Pushes that fit fill the slots from the depth on, and leave those below. -/
theorem pushAll_ok {as : List Word} {s : State} (h : s.sp.val + as.length ≤ 16) :
    ∃ k, pushAll as s = .ok (s.setStack ⟨s.sp.val + as.length, by omega⟩ k) ∧
      (∀ j, j < s.sp.val → k[j]? = s.stk[j]?) ∧ HoldsFrom s.sp.val as k := by
  induction as generalizing s with
  | nil => exact ⟨s.stk, rfl, fun _ _ => rfl, fun _ hj => absurd hj (Nat.not_lt_zero _)⟩
  | cons a as ih =>
    have hlen : s.sp.val + (as.length + 1) ≤ 16 := h
    have hsp : s.sp.val < 16 := by omega
    obtain ⟨k, hk, hbelow, habove⟩ :=
      ih (s := s.setStack ⟨s.sp.val + 1, by omega⟩ (s.stk.set s.sp.val a))
        (show s.sp.val + 1 + as.length ≤ 16 by omega)
    have hbelow : ∀ j, j < s.sp.val + 1 → k[j]? = (s.stk.set s.sp.val a)[j]? := hbelow
    have habove : ∀ j, j < as.length → k[s.sp.val + 1 + j]? = as[j]? := habove
    refine ⟨k, ?_, fun j hj => ?_, fun j hj => ?_⟩
    · have hdepth : s.sp.val + 1 + as.length = s.sp.val + (as.length + 1) := by omega
      rw [pushAll, push_ok a hsp]
      exact hk.trans (congrArg (fun d => Except.ok (s.setStack d k)) (Fin.ext hdepth))
    · rw [hbelow j (by omega), Vector.getElem?_set_ne hsp (by omega)]
    · rcases j with _ | j
      · rw [Nat.add_zero, hbelow _ (by omega), Vector.getElem?_set_self hsp]
        rfl
      · rw [show s.sp.val + (j + 1) = s.sp.val + 1 + j by omega,
          habove j (Nat.lt_of_succ_lt_succ hj)]
        rfl

/-- Pops give back, last first, the addresses that the slots below the depth hold. -/
theorem popMany_ok {as : List Word} {s : State} {d : Fin 17} (hd : s.sp.val = d.val + as.length)
    (hs : HoldsFrom d.val as s.stk) :
    popMany as.length s = .ok (as.reverse, s.setStack d s.stk) := by
  induction as using List.reverseRecOn generalizing s with
  | nil =>
    obtain rfl : s.sp = d := Fin.ext hd
    rfl
  | append_singleton as a ih =>
    rw [List.length_append, List.length_singleton] at hd
    have htop : s.stk[s.sp.val - 1]'(by omega) = a := by
      rw [Vector.getElem_eq_iff, show s.sp.val - 1 = d.val + as.length by omega,
        hs as.length (by simp), List.getElem?_concat_length]
    have hrest := ih (s := s.setStack ⟨s.sp.val - 1, by omega⟩ s.stk)
      (show s.sp.val - 1 = d.val + as.length by omega) fun j hj => by
        rw [← List.getElem?_append_left (l₂ := [a]) hj]
        exact hs j (by rw [List.length_append]; omega)
    rw [List.length_append, List.length_singleton, popMany, pop_ok (by omega), htop]
    simp only [hrest, List.reverse_append]
    rfl

/-- Settles O13: the pushes fill the slots (`pushAll_ok`) that the pops read back (`popMany_ok`). -/
theorem pushesPopInReverse : Obligations.PushesPopInReverse := by
  intro as s h
  obtain ⟨k, hk, -, hheld⟩ := pushAll_ok h
  exact ⟨_, hk, rfl, ⟨_, popMany_ok (d := s.sp) rfl hheld, rfl⟩, fun hfull a => push_full a hfull⟩

/-! ### What the instructions with more than one path can do

Each inversion says which fields of the state may differ before the report, on every path, the refused one
included. -/

@[simp] theorem skipIf_eq_setPc (c : Bool) :
    s.skipIf c = s.setPc (if c then s.pc + 2 else s.pc) := by
  cases c <;> rfl

theorem exec_ret_cases (h : exec .ret s = .next t) :
    ∃ k d p, t = ((s.setStack d s.stk).setPc p).report k := by
  rcases Nat.eq_zero_or_pos s.sp.val with h0 | h0
  · rw [exec_ret_empty h0] at h
    cases h
    exact ⟨_, s.sp, s.pc, rfl⟩
  · rw [exec_ret_ok h0] at h
    cases h
    exact ⟨_, _, _, rfl⟩

theorem exec_call_cases {nnn : Addr} (h : exec (.call nnn) s = .next t) :
    ∃ k d st p, t = ((s.setStack d st).setPc p).report k := by
  rcases Nat.lt_or_ge s.sp.val 16 with h16 | h16
  · rw [exec_call_ok nnn h16] at h
    cases h
    exact ⟨_, _, _, _, rfl⟩
  · rw [exec_call_full nnn (by omega)] at h
    cases h
    exact ⟨_, s.sp, s.stk, s.pc, rfl⟩

/-- If a block transfer changes `I`, then under `advance`, to a 12-bit value (43_index_memory.md
R155). -/
theorem advance_of_indexAfterBlock_ne {x : Reg} {w : Word} (hw : w = s.I ∨ w = s.indexAfterBlock x)
    (hne : w ≠ s.I) : s.cfg.ldstIMode = .advance ∧ w.toNat ≤ 0xFFF := by
  obtain rfl : w = s.indexAfterBlock x := hw.resolve_left hne
  unfold State.indexAfterBlock at hne ⊢
  cases hm : s.cfg.ldstIMode with
  | keep => rw [hm] at hne; exact absurd rfl hne
  | advance => exact ⟨rfl, indexPlus_le _ _⟩

theorem exec_addI_cases {x : Reg} (h : exec (.addI x) s = .next t) :
    ∃ v, t = ({ s with v := v }.setI (indexPlus s.I (s.getV x).toNat)).report .success := by
  rcases Nat.lt_or_ge 0xFFF (s.I.toNat + (s.getV x).toNat) with ho | ho
  · rw [exec_addI_overflow ho] at h
    cases h
    exact ⟨_, rfl⟩
  · rw [exec_addI_in_range ho] at h
    cases h
    exact ⟨_, rfl⟩

theorem exec_ldB_cases {x : Reg} (h : exec (.ldB x) s = .next t) :
    ∃ k m, t = (s.setMem m).report k ∧ (Memory.wf s.cfg s.mem → Memory.wf s.cfg m) := by
  cases hw : State.spanWrite (s.indexAddr 0) (decimalDigits (s.getV x)) s with
  | none =>
    rw [exec_ldB_none hw] at h
    cases h
    exact ⟨_, s.mem, rfl, id⟩
  | some u =>
    rw [exec_ldB_ok hw] at h
    cases h
    obtain ⟨m, rfl⟩ := spanWrite_fields hw
    exact ⟨_, m, rfl, fun hm => spanWrite_wf hm hw⟩

theorem exec_stRegs_cases {x : Reg} (h : exec (.stRegs x) s = .next t) :
    ∃ k m w, t = ((s.setMem m).setI w).report k ∧ (w = s.I ∨ w = s.indexAfterBlock x) ∧
      (Memory.wf s.cfg s.mem → Memory.wf s.cfg m) := by
  cases hw : State.spanWrite (s.indexAddr 0) (s.regsUpTo x) s with
  | none =>
    rw [exec_stRegs_none hw] at h
    cases h
    exact ⟨_, s.mem, s.I, rfl, .inl rfl, id⟩
  | some u =>
    rw [exec_stRegs_ok hw] at h
    cases h
    obtain ⟨m, rfl⟩ := spanWrite_fields hw
    exact ⟨_, m, _, rfl, .inr rfl, fun hm => spanWrite_wf hm hw⟩

/-- A load from a block leaves the registers past the last it names (43_index_memory.md R157). -/
theorem exec_ldRegs_cases {x : Reg} (h : exec (.ldRegs x) s = .next t) :
    ∃ k v w, t = ({ s with v := v }.setI w).report k ∧ (w = s.I ∨ w = s.indexAfterBlock x) ∧
      ∀ r, x < r → t.getV r = s.getV r := by
  cases hr : s.spanRead (s.indexAddr 0) (x.val + 1) with
  | none =>
    rw [exec_ldRegs_none hr] at h
    cases h
    exact ⟨_, s.v, s.I, rfl, .inl rfl, fun _ _ => rfl⟩
  | some bs =>
    rw [exec_ldRegs_ok hr] at h
    cases h
    obtain ⟨v, hv⟩ := setRange_fields s bs 0
    refine ⟨.success, v, _, by rw [hv], .inr rfl, fun r hxr => ?_⟩
    have hlen : bs.length = x.val + 1 := by simp [(spanRead_eq_some.mp hr).1]
    have hout : ¬ (0 ≤ r.val ∧ r.val - 0 < bs.length) := by
      have : x.val < r.val := hxr
      omega
    rw [report_getV, setI_getV, setRange_getV, dif_neg hout]

theorem exec_drw_cases {x y : Reg} {n : Nibble} (h : exec (.drw x y n) s = .next t) :
    ∃ k v f, t = ({ s with v := v }.setFb f).report k ∧
      (Framebuffer.wf s.cfg s.fb → Framebuffer.wf s.cfg f) := by
  cases hr : s.spanRead (s.indexAddr 0) n.toNat with
  | none =>
    rw [exec_drw_none hr] at h
    cases h
    exact ⟨_, s.v, s.fb, rfl, id⟩
  | some rows =>
    rw [exec_drw_ok hr] at h
    cases h
    obtain ⟨-, -, -, hwf⟩ := drawSprite_spec s.cfg (s.getV x) (s.getV y) rows s.fb
    exact ⟨_, _, _, rfl, hwf⟩

/-! ### No instruction but `00EE` and `2NNN` reads or writes the stack (10_state.md R31) -/

@[simp] theorem spanRead_setStack (d : Fin 17) (k : Vector Word 16) (a n : Nat) :
    (s.setStack d k).spanRead a n = s.spanRead a n := by
  induction n generalizing a with
  | zero => rfl
  | succ n ih =>
    have hb : (s.setStack d k).memRead a = s.memRead a := rfl
    rw [State.spanRead, State.spanRead, hb, ih]

theorem memWrite_setStack (d : Fin 17) (k : Vector Word 16) (a : Nat) (b : Byte) :
    (s.setStack d k).memWrite a b = (s.memWrite a b).map (·.setStack d k) := by
  unfold State.memWrite
  rw [setStack_cfg]
  cases ea s.cfg a with
  | none => rfl
  | some e =>
    cases hf : Config.inFont s.cfg e with
    | false => simp only [hf]; rfl
    | true => simp only [hf]; cases s.cfg.fontWrite <;> rfl

theorem spanWrite_setStack (d : Fin 17) (k : Vector Word 16) (a : Nat) (bs : List Byte) :
    State.spanWrite a bs (s.setStack d k) = (State.spanWrite a bs s).map (·.setStack d k) := by
  induction bs generalizing s a with
  | nil => rfl
  | cons b bs ih =>
    rw [State.spanWrite, State.spanWrite, memWrite_setStack]
    cases s.memWrite a b with
    | none => rfl
    | some t => exact ih (a + 1)

theorem setRange_setStack (d : Fin 17) (k : Vector Word 16) (bs : List Byte) (j : Nat) :
    State.setRange j bs (s.setStack d k) = (State.setRange j bs s).setStack d k := by
  induction bs generalizing s j with
  | nil => rfl
  | cons b bs ih =>
    rw [State.setRange, State.setRange, ← ih]
    split <;> rfl

theorem skipIf_setStack (d : Fin 17) (k : Vector Word 16) (c : Bool) :
    (s.setStack d k).skipIf c = (s.skipIf c).setStack d k := by
  cases c <;> rfl

/-- Noninterference of the stack: an instruction other than `00EE` and `2NNN` does the same over any
other stack, and leaves that stack as it is. -/
theorem exec_setStack (hr : i ≠ .ret) (hc : ∀ nnn, i ≠ .call nnn) (d : Fin 17) (k : Vector Word 16)
    (h : exec i s = .next t) : exec i (s.setStack d k) = .next (t.setStack d k) := by
  cases i
  case ret => exact absurd rfl hr
  case call nnn => exact absurd rfl (hc nnn)
  case seImm | sneImm | seReg | sneReg =>
    cases h
    exact congrArg done (skipIf_setStack d k _)
  case addI x =>
    rcases Nat.lt_or_ge 0xFFF (s.I.toNat + (s.getV x).toNat) with ho | ho
    · rw [exec_addI_overflow ho] at h
      cases h
      exact exec_addI_overflow ho
    · rw [exec_addI_in_range ho] at h
      cases h
      exact exec_addI_in_range ho
  case ldB x =>
    have hk := spanWrite_setStack (s := s) d k (s.indexAddr 0) (decimalDigits (s.getV x))
    cases hw : State.spanWrite (s.indexAddr 0) (decimalDigits (s.getV x)) s with
    | none => rw [exec_ldB_none hw] at h; cases h; rw [hw] at hk; exact exec_ldB_none hk
    | some u => rw [exec_ldB_ok hw] at h; cases h; rw [hw] at hk; exact exec_ldB_ok hk
  case stRegs x =>
    have hk := spanWrite_setStack (s := s) d k (s.indexAddr 0) (s.regsUpTo x)
    cases hw : State.spanWrite (s.indexAddr 0) (s.regsUpTo x) s with
    | none => rw [exec_stRegs_none hw] at h; cases h; rw [hw] at hk; exact exec_stRegs_none hk
    | some u =>
      rw [exec_stRegs_ok hw] at h
      cases h
      rw [hw] at hk
      exact exec_stRegs_ok (s := s.setStack d k) hk
  case ldRegs x =>
    have hk := spanRead_setStack (s := s) d k (s.indexAddr 0) (x.val + 1)
    cases hw : s.spanRead (s.indexAddr 0) (x.val + 1) with
    | none => rw [exec_ldRegs_none hw] at h; cases h; rw [hw] at hk; exact exec_ldRegs_none hk
    | some bs =>
      rw [exec_ldRegs_ok hw] at h
      cases h
      rw [hw] at hk
      rw [exec_ldRegs_ok hk, setRange_setStack]
      rfl
  case drw x y n =>
    have hk := spanRead_setStack (s := s) d k (s.indexAddr 0) n.toNat
    cases hw : s.spanRead (s.indexAddr 0) n.toNat with
    | none => rw [exec_drw_none hw] at h; cases h; rw [hw] at hk; exact exec_drw_none hk
    | some rows => rw [exec_drw_ok hw] at h; cases h; rw [hw] at hk; exact exec_drw_ok hk
  all_goals cases h; rfl

/-- The frame that `exec_setStack` contains: over its own stack, the stack it leaves is that one. -/
theorem exec_stack (hr : i ≠ .ret) (hc : ∀ nnn, i ≠ .call nnn) (h : exec i s = .next t) :
    t.sp = s.sp ∧ t.stk = s.stk := by
  have hself : exec i s = .next (t.setStack s.sp s.stk) := exec_setStack hr hc s.sp s.stk h
  rw [h] at hself
  have ht : t = t.setStack s.sp s.stk := Host.Outcome.next.inj hself
  exact ⟨by rw [ht]; rfl, by rw [ht]; rfl⟩

/-! ### Steps, by the instruction at `pc` -/

/-- A step that has an instruction at `pc` is that instruction's. -/
theorem step_of_instrAt (hi : s.instrAt = some i) (h : step s = .next t) :
    ∃ w u, exec i (fetched s w) = .next u ∧ t = u.nextInput := by
  obtain ⟨w, hw, rfl⟩ := instrAt_eq_some.mp hi
  obtain ⟨-, ⟨w', k, u, hw', he, ht, -⟩ | ⟨hn, -⟩⟩ := step_cases h
  · rw [hw] at hw'
    cases hw'
    exact ⟨w, _, he, ht⟩
  · rw [hw] at hn
    cases hn

/-- Settles O47: `exec_stack`, and a failed fetch leaves the stack. -/
theorem onlyCallAndRetChangeTheStack : Obligations.OnlyCallAndRetChangeTheStack := by
  intro s t h hr hc
  obtain ⟨hsp, hstk⟩ : t.sp = s.sp ∧ t.stk = s.stk := by
    obtain ⟨-, ⟨w, k, u, hw, he, rfl, -⟩ | ⟨-, rfl⟩⟩ := step_cases h
    · have hi : s.instrAt = some (decodeWord w) := instrAt_eq_some.mpr ⟨w, hw, rfl⟩
      exact (exec_stack (fun e => hr (e ▸ hi)) (fun nnn e => hc nnn (e ▸ hi)) he :)
    · exact ⟨rfl, rfl⟩
  exact ⟨hsp, fun k => by rw [hstk]⟩

/-! ### Dead slots (10_state.md R32) -/

theorem sameButDeadSlots_iff {s s' : State} : SameButDeadSlots s s' ↔
    ∃ k, s' = s.setStack s.sp k ∧ ∀ j : Fin 16, j.val < s.sp.val → k[j.val] = s.stk[j.val] := by
  constructor
  · rintro ⟨he, hk⟩
    exact ⟨s'.stk, he, hk⟩
  · rintro ⟨k, rfl, hk⟩
    exact ⟨rfl, hk⟩

/-- The answers of an instruction to two states that differ in dead slots differ in dead slots: `00EE`
reads the slot below the depth only, and `2NNN` writes the slot it makes live. -/
theorem exec_sameButDeadSlots {s' : State} (hs : SameButDeadSlots s s')
    (h : exec i s = .next t) : ∃ t', exec i s' = .next t' ∧ SameButDeadSlots t t' := by
  obtain ⟨k, rfl, hk⟩ := sameButDeadSlots_iff.mp hs
  by_cases hr : i = .ret
  · subst hr
    rcases Nat.eq_zero_or_pos s.sp.val with h0 | h0
    · rw [exec_ret_empty h0] at h
      cases h
      exact ⟨_, exec_ret_empty (s := s.setStack s.sp k) h0, rfl, hk⟩
    · rw [exec_ret_ok h0] at h
      cases h
      have htop : k[s.sp.val - 1] = s.stk[s.sp.val - 1] :=
        hk ⟨s.sp.val - 1, by omega⟩ (Nat.sub_lt h0 Nat.one_pos)
      refine ⟨_, exec_ret_ok (s := s.setStack s.sp k) h0, sameButDeadSlots_iff.mpr ⟨k, ?_, ?_⟩⟩
      · simp only [setStack_sp, setStack_stk, htop]
        rfl
      · exact fun j hj => hk j (Nat.lt_of_lt_of_le hj (Nat.sub_le _ _))
  by_cases hc : ∃ nnn, i = .call nnn
  · obtain ⟨nnn, rfl⟩ := hc
    rcases Nat.lt_or_ge s.sp.val 16 with h16 | h16
    · rw [exec_call_ok nnn h16] at h
      cases h
      refine ⟨_, exec_call_ok (s := s.setStack s.sp k) nnn h16, rfl, fun j hj => ?_⟩
      show (k.set s.sp.val s.pc)[j.val] = (s.stk.set s.sp.val s.pc)[j.val]
      have hj : j.val < s.sp.val + 1 := hj
      simp only [Vector.getElem_set]
      split
      · rfl
      · exact hk j (by omega)
    · have h16 : s.sp.val = 16 := by omega
      rw [exec_call_full nnn h16] at h
      cases h
      exact ⟨_, exec_call_full (s := s.setStack s.sp k) nnn h16, rfl, hk⟩
  · have hc : ∀ nnn, i ≠ .call nnn := fun nnn e => hc ⟨nnn, e⟩
    obtain ⟨hsp, hstk⟩ := exec_stack hr hc h
    refine ⟨_, exec_setStack hr hc s.sp k h, sameButDeadSlots_iff.mpr ⟨k, by rw [hsp], ?_⟩⟩
    rwa [hsp, hstk]

/-- Settles O52: the fetch reads no slot, so both steps run one instruction (`exec_sameButDeadSlots`) or
both fail the fetch. -/
theorem deadStackSlotsAreUnobservable : Obligations.DeadStackSlotsAreUnobservable := by
  intro s s' t hs h
  obtain ⟨k, rfl, hk⟩ := sameButDeadSlots_iff.mp hs
  obtain ⟨hb, ⟨w, c, u, hw, he, rfl, -⟩ | ⟨hn, rfl⟩⟩ := step_cases h
  · have hf : SameButDeadSlots (fetched s w) (fetched (s.setStack s.sp k) w) := ⟨rfl, hk⟩
    obtain ⟨t', he', ht, hd⟩ := exec_sameButDeadSlots hf he
    refine ⟨_, step_of_fetch (s := s.setStack s.sp k) hb hw he', ?_, hd⟩
    rw [ht]
    rfl
  · exact ⟨_, step_of_no_fetch (s := s.setStack s.sp k) hb hn, rfl, hk⟩

/-! ### `pc` (10_state.md R24) -/

theorem pcAfter_ret (h : 0 < s.sp.val) : pcAfter .ret s = s.stk[s.sp.val - 1]'(by omega) := dif_pos h

theorem pcAfter_ret_empty (h : s.sp.val = 0) : pcAfter .ret s = s.pc + 2 := dif_neg (by omega)

/-- The skip of R107, from the state the skip's word was fetched in. -/
theorem fetched_skipIf_pc (w : Word) {c : Bool} {p : Prop} [Decidable p] (hc : c = true ↔ p) :
    ((fetched s w).skipIf c).pc = if p then s.pc + 4 else s.pc + 2 := by
  cases c
  · exact (if_neg (by simp [← hc])).symm
  · rw [if_pos (hc.mp rfl)]
    exact BitVec.add_assoc s.pc 2 2

/-- `pc` after an instruction, from the state its word was fetched in. -/
theorem exec_pc {w : Word} (h : exec i (fetched s w) = .next t) : t.pc = pcAfter i s := by
  cases i
  case ret =>
    rcases Nat.eq_zero_or_pos s.sp.val with h0 | h0
    · rw [exec_ret_empty (s := fetched s w) h0] at h
      cases h
      exact (pcAfter_ret_empty h0).symm
    · rw [exec_ret_ok (s := fetched s w) h0] at h
      cases h
      exact (pcAfter_ret h0).symm
  case call nnn =>
    rcases Nat.lt_or_ge s.sp.val 16 with h16 | h16
    · rw [exec_call_ok (s := fetched s w) nnn h16] at h
      cases h
      exact (if_pos h16).symm
    · have hfull : s.sp.val = 16 := by omega
      rw [exec_call_full (s := fetched s w) nnn hfull] at h
      cases h
      exact (if_neg (Nat.not_lt.mpr h16)).symm
  case seImm | seReg => cases h; exact fetched_skipIf_pc w beq_iff_eq
  case sneImm | sneReg => cases h; exact fetched_skipIf_pc w bne_iff_ne
  case addI x => obtain ⟨v, rfl⟩ := exec_addI_cases h; rfl
  case ldB x => obtain ⟨k, m, rfl, -⟩ := exec_ldB_cases h; rfl
  case stRegs x => obtain ⟨k, m, j, rfl, -⟩ := exec_stRegs_cases h; rfl
  case ldRegs x => obtain ⟨k, v, j, rfl, -⟩ := exec_ldRegs_cases h; rfl
  case drw x y n => obtain ⟨k, v, f, rfl, -⟩ := exec_drw_cases h; rfl
  all_goals cases h; rfl

/-- Settles O46: the step's instruction (`step_of_instrAt`) leaves the `pc` of the table (`exec_pc`). -/
theorem pcFollowsTheTable : Obligations.PcFollowsTheTable := by
  intro s t i hi h
  obtain ⟨w, u, he, rfl⟩ := step_of_instrAt hi h
  exact (exec_pc he :)

/-! ### VF (10_state.md R21) -/

theorem eq_vf_of_setV_getV_ne {x : Reg} {b : Byte} (h : (s.setV x b).getV vf ≠ s.getV vf) :
    x = vf := by
  by_contra hx
  exact h (setV_getV_other s b (Ne.symm hx))

/-- Which instructions may change VF (R21): the flag writers may; of those that write `V[x]`, only the
ones with `x = 15`; a load from a block, only if it loads V15; no other. -/
theorem exec_vf (h : exec i s = .next t) (hne : t.getV vf ≠ s.getV vf) :
    (∃ x y, i = .addReg x y ∨ i = .sub x y ∨ i = .shr x y ∨ i = .subn x y ∨ i = .shl x y) ∨
    (∃ x y n, i = .drw x y n) ∨ (∃ x, i = .addI x) ∨
    (∃ nn, i = .ldImm vf nn ∨ i = .addImm vf nn ∨ i = .rnd vf nn) ∨
    (∃ y, i = .ldReg vf y ∨ i = .orReg vf y ∨ i = .andReg vf y ∨ i = .xorReg vf y) ∨
    i = .ldRegs vf := by
  cases i
  case addReg | sub | shr | subn | shl | drw | addI => simp
  case ldImm | addImm | rnd | ldReg | orReg | andReg | xorReg =>
    cases h
    obtain rfl := eq_vf_of_setV_getV_ne hne
    simp
  case ldRegs x =>
    obtain ⟨k, v, j, -, -, hpast⟩ := exec_ldRegs_cases h
    have hx : x = vf := by
      by_contra hx
      exact hne (hpast vf (lt_of_le_of_ne (Fin.le_last x) hx))
    simp [hx]
  case ret => obtain ⟨k, d, p, rfl⟩ := exec_ret_cases h; exact absurd rfl hne
  case call nnn => obtain ⟨k, d, st, p, rfl⟩ := exec_call_cases h; exact absurd rfl hne
  case seImm | sneImm | seReg | sneReg => cases h; simp at hne
  case ldB x => obtain ⟨k, m, rfl, -⟩ := exec_ldB_cases h; exact absurd rfl hne
  case stRegs x => obtain ⟨k, m, j, rfl, -⟩ := exec_stRegs_cases h; exact absurd rfl hne
  all_goals cases h; exact absurd rfl hne

/-- Settles O49: `exec_vf` for the step's instruction. -/
theorem onlyFlagWritersAndNamersChangeVF : Obligations.OnlyFlagWritersAndNamersChangeVF := by
  intro s t i hi h hne
  obtain ⟨w, u, he, rfl⟩ := step_of_instrAt hi h
  exact exec_vf he hne

/-! ### `I` (10_state.md R27) -/

/-- Which instructions may change `I`, and that each of them leaves a 12-bit value (R27). -/
theorem exec_index (h : exec i s = .next t) (hne : t.I ≠ s.I) :
    ((∃ nnn, i = .ldI nnn) ∨ (∃ x, i = .addI x) ∨ (∃ x, i = .ldF x) ∨
      (s.cfg.ldstIMode = .advance ∧ ∃ x, i = .stRegs x ∨ i = .ldRegs x)) ∧
    (s.cfg.Legal → t.I.toNat ≤ 0xFFF) := by
  cases i
  case ldI nnn =>
    cases h
    refine ⟨by simp, fun _ => ?_⟩
    rw [report_I, setI_I, zextAddr_toNat]
    omega
  case addI x =>
    obtain ⟨v, rfl⟩ := exec_addI_cases h
    exact ⟨by simp, fun _ => indexPlus_le _ _⟩
  case ldF x =>
    cases h
    exact ⟨by simp, fun hl => glyphAddr_le hl _⟩
  case stRegs x =>
    obtain ⟨k, m, j, rfl, hj, -⟩ := exec_stRegs_cases h
    obtain ⟨ha, hle⟩ := advance_of_indexAfterBlock_ne hj hne
    exact ⟨by simp [ha], fun _ => hle⟩
  case ldRegs x =>
    obtain ⟨k, v, j, rfl, hj, -⟩ := exec_ldRegs_cases h
    obtain ⟨ha, hle⟩ := advance_of_indexAfterBlock_ne hj hne
    exact ⟨by simp [ha], fun _ => hle⟩
  case ret => obtain ⟨k, d, p, rfl⟩ := exec_ret_cases h; exact absurd rfl hne
  case call nnn => obtain ⟨k, d, st, p, rfl⟩ := exec_call_cases h; exact absurd rfl hne
  case seImm | sneImm | seReg | sneReg => cases h; simp at hne
  case ldB x => obtain ⟨k, m, rfl, -⟩ := exec_ldB_cases h; exact absurd rfl hne
  case drw x y n => obtain ⟨k, v, f, rfl, -⟩ := exec_drw_cases h; exact absurd rfl hne
  all_goals cases h; exact absurd rfl hne

/-- Settles O50: `exec_index` for the step's instruction. -/
theorem onlyIndexWritersChangeI : Obligations.OnlyIndexWritersChangeI := by
  intro s t i hi h hne
  obtain ⟨w, u, he, rfl⟩ := step_of_instrAt hi h
  exact (exec_index he hne :)

/-! ### The invariant -/

/-- An instruction keeps the canonical forms: only `FX33` and `FX55` write memory, only `00E0` and `DXYN`
the framebuffer. -/
theorem exec_wf (h : exec i s = .next t) (hm : Memory.wf s.cfg s.mem)
    (hf : Framebuffer.wf s.cfg s.fb) : Memory.wf s.cfg t.mem ∧ Framebuffer.wf s.cfg t.fb := by
  cases i
  case ldB x => obtain ⟨k, m, rfl, hwf⟩ := exec_ldB_cases h; exact ⟨hwf hm, hf⟩
  case stRegs x => obtain ⟨k, m, j, rfl, -, hwf⟩ := exec_stRegs_cases h; exact ⟨hwf hm, hf⟩
  case cls => cases h; exact ⟨hm, Framebuffer.wf_clear s.cfg⟩
  case drw x y n => obtain ⟨k, v, f, rfl, hwf⟩ := exec_drw_cases h; exact ⟨hm, hwf hf⟩
  case ret => obtain ⟨k, d, p, rfl⟩ := exec_ret_cases h; exact ⟨hm, hf⟩
  case call nnn => obtain ⟨k, d, st, p, rfl⟩ := exec_call_cases h; exact ⟨hm, hf⟩
  case seImm | sneImm | seReg | sneReg => cases h; rw [skipIf_eq_setPc]; exact ⟨hm, hf⟩
  case addI x => obtain ⟨v, rfl⟩ := exec_addI_cases h; exact ⟨hm, hf⟩
  case ldRegs x => obtain ⟨k, v, j, rfl, -⟩ := exec_ldRegs_cases h; exact ⟨hm, hf⟩
  all_goals cases h; exact ⟨hm, hf⟩

theorem exec_index_le (h : exec i s = .next t) (hl : s.cfg.Legal) (hI : s.I.toNat ≤ 0xFFF) :
    t.I.toNat ≤ 0xFFF := by
  by_cases hne : t.I = s.I
  · rwa [hne]
  · exact (exec_index h hne).2 hl

/-- A report adds no Success to the record (60_exceptions.md R207). -/
theorem report_record_ne_success (k : StatusKind) (hr : ∀ c ∈ s.record, c.kind ≠ .success) :
    ∀ c ∈ (s.report k).record, c.kind ≠ .success := by
  rw [report_record]
  split
  · exact hr
  · rename_i hk
    rintro c (_ | ⟨_, hc⟩)
    · exact hk
    · exact hr c hc

theorem State.Inv.report (hs : s.Inv) (k : StatusKind) : (s.report k).Inv :=
  ⟨hs.legal, hs.mem, hs.fb, hs.index, report_record_ne_success k hs.record, hs.booted⟩

theorem State.Inv.withRnd (hs : s.Inv) (b : Byte) : (s.withRnd b).Inv :=
  ⟨hs.legal, hs.mem, hs.fb, hs.index, hs.record, hs.booted⟩

theorem State.Inv.nextInput (hs : s.Inv) : s.nextInput.Inv :=
  ⟨hs.legal, hs.mem, hs.fb, hs.index, hs.record, hs.booted⟩

theorem State.Inv.fetched (hs : s.Inv) (w : Word) : (fetched s w).Inv :=
  ⟨hs.legal, hs.mem, hs.fb, hs.index, hs.record, hs.booted⟩

theorem State.Inv.fetchFailed (hs : s.Inv) : (fetchFailed s).Inv :=
  State.Inv.report (s := { s with ir := 0 })
    ⟨hs.legal, hs.mem, hs.fb, hs.index, hs.record, hs.booted⟩ _

/-- An instruction keeps the invariant. -/
theorem exec_inv (h : exec i s = .next t) (hs : s.Inv) : t.Inv := by
  obtain ⟨hmem, hfb⟩ := exec_wf h hs.mem hs.fb
  have hI := exec_index_le h hs.legal hs.index
  obtain ⟨k, u, he, hu, -⟩ := exec_next i s
  rw [h] at he
  cases he
  rw [hu] at hmem hfb hI ⊢
  exact ⟨hs.legal, hmem, hfb, hI, report_record_ne_success k hs.record, hs.booted⟩

/-- Settles O58: the fetch, the instruction (`exec_inv`), the report of a failed fetch and the next
input byte keep the invariant. -/
theorem everyStepKeepsTheInvariant : Obligations.EveryStepKeepsTheInvariant := by
  intro s t hs h
  obtain ⟨-, ⟨w, k, u, -, he, rfl, -⟩ | ⟨-, rfl⟩⟩ := step_cases h
  · exact (exec_inv he (hs.fetched w)).nextInput
  · exact hs.fetchFailed.nextInput

/-! ### Bootstrap -/

/-- `loadProgram` leaves a canonical memory: the ROM is copied only if it fits (20_memory.md R52). -/
theorem loadProgram_wf {c : Config} (hl : c.Legal) (rom : List Byte) :
    Memory.wf c (Memory.loadProgram c rom Memory.initialize).2 := by
  obtain ⟨-, hbase, -⟩ := hl
  rcases Nat.lt_or_ge (memSize - c.progBase) rom.length with h | h
  · rw [loadProgram_capacity _ h]
    exact Memory.wf_nil c
  · rw [loadProgram_ok _ h]
    exact Memory.wf_copy (Memory.wf_nil c) (by simp only [memSize] at h ⊢; omega)

theorem bootstrap_inv (rom : List Byte) (hl : s.cfg.Legal) : (bootstrap rom s).2.Inv where
  legal := hl
  mem := loadProgram_wf hl rom
  fb := Framebuffer.wf_clear s.cfg
  index := Nat.zero_le _
  record := List.forall_mem_nil _
  booted := rfl

theorem bootstrap_nil_reset : (bootstrap [] State.reset).2 = State.reset := rfl

theorem default_legal : Config.default.Legal := by decide

/-- Settles O59: reset is the bootstrap of the empty ROM, under legal parameters. -/
theorem resetMeetsTheInvariant : Obligations.ResetMeetsTheInvariant := by
  unfold Obligations.ResetMeetsTheInvariant
  rw [← bootstrap_nil_reset]
  exact bootstrap_inv [] default_legal

/-- Settles O60: `bootstrap_inv`, and by induction on how a state is reached, since neither a supplied
byte nor a step (O58) breaks the invariant. -/
theorem bootstrapMeetsTheInvariant : Obligations.BootstrapMeetsTheInvariant := by
  refine ⟨fun rom s hl => bootstrap_inv rom hl, ?_, fun s hr => ?_⟩
  · rw [← bootstrap_nil_reset]
    exact .bootstrap [] State.reset default_legal
  · induction hr with
    | bootstrap rom s hl => exact bootstrap_inv rom hl
    | input b s _ ih => exact ih.withRnd b
    | step s t _ h ih => exact everyStepKeepsTheInvariant s t ih h

theorem bootstrap_ok {rom : List Byte} (h : rom.length ≤ memSize - s.cfg.progBase) :
    bootstrap rom s = (.ok, (bootstrap rom s).2) :=
  congrArg (·, (bootstrap rom s).2) (congrArg Prod.fst (loadProgram_ok Memory.initialize h))

/-- Memory after the bootstrap of a ROM that fits: its copy over what `initialize` leaves. -/
theorem bootstrap_byteAt {rom : List Byte} (h : rom.length ≤ memSize - s.cfg.progBase) (a : Nat) :
    (bootstrap rom s).2.byteAt a =
      Memory.read s.cfg (Memory.copy s.cfg s.cfg.progBase rom Memory.initialize) a := by
  show Memory.read s.cfg (Memory.loadProgram s.cfg rom Memory.initialize).2 a = _
  rw [loadProgram_ok _ h]

/-- Settles O54: the bytes are read by the laws of the copy (`bootstrap_byteAt`). -/
theorem bootstrapGivesTheResetTable : Obligations.BootstrapGivesTheResetTable := by
  intro rom s hl hfit
  obtain ⟨-, hbase, -⟩ := hl
  refine ⟨_, bootstrap_ok hfit, ?_, ?_, rfl, rfl, ?_, ?_, rfl, ?_, ?_, ?_⟩
  · intro x
    exact Vector.getElem_replicate _
  · show (BitVec.ofNat 16 s.cfg.progBase).toNat = s.cfg.progBase
    rw [BitVec.toNat_ofNat]
    omega
  · intro k
    exact Vector.getElem_replicate _
  · exact Framebuffer.get_clear s.cfg
  · intro k b hk
    rw [bootstrap_byteAt hfit, Memory.read_copy hk]
  · intro k hk
    rw [bootstrap_byteAt hfit, Memory.read_copy_other hk, Memory.read_initialize, Memory.blank_font]
  · intro a hfont hprog
    rw [bootstrap_byteAt hfit, Memory.read_copy_other hprog, Memory.read_initialize, Memory.blank_other hfont]

end Sys2Proof.Machine

/-! PROOFS. The statements of 20_memory.md: reads, writes and spans through `ea`, and the fetch of a word
just stored. An accepted address resolves modulo 4096 under either policy (`ea_eq_some`), so each read is
stated once, for the address it resolves to. -/

namespace Sys2Proof.Machine

variable {s t : State} {a e : Nat} {b : Byte}

/-! ### `ea` and the reads (20_memory.md R42, R43) -/

theorem ea_of_wrap (h : s.cfg.addrPolicy = .wrap) (a : Nat) : ea s.cfg a = some (a % 4096) :=
  ea_eq_some.mpr ⟨rfl, .inl h⟩

theorem ea_of_le (h : a ≤ 0xFFF) : ea s.cfg a = some a :=
  ea_eq_some.mpr ⟨(Nat.mod_eq_of_lt (Nat.lt_succ_of_le h)).symm, .inr h⟩

theorem memRead_of_ea (h : ea s.cfg a = some e) : s.memRead a = some (s.byteAt e) := by
  rw [State.memRead, h, Option.map_some]

theorem memRead_of_ea_none (h : ea s.cfg a = none) : s.memRead a = none := by
  rw [State.memRead, h, Option.map_none]

theorem memReadWord_of_ea {e' : Nat} (h : ea s.cfg a = some e) (h' : ea s.cfg (a + 1) = some e') :
    s.memReadWord a = some (s.byteAt e ++ s.byteAt e') :=
  memReadWord_eq_some.mpr ⟨_, _, memRead_of_ea h, memRead_of_ea h', rfl⟩

theorem append_bytes_toNat (hi lo : Byte) : (hi ++ lo).toNat = 256 * hi.toNat + lo.toNat := by
  rw [append_toNat]
  omega

/-- Settles O29: the reads resolve through `ea` (`memRead_of_ea`, `memReadWord_of_ea`), which accepts every
address under `wrap`, and those up to 0xFFF under `fault`. -/
theorem readsResolveThroughEa : Obligations.ReadsResolveThroughEa := by
  intro s a
  constructor
  · intro hwrap
    have hea := ea_of_wrap hwrap
    exact ⟨hea a, memRead_of_ea (hea a), _, memReadWord_of_ea (hea a) (hea (a + 1)),
      append_bytes_toNat _ _⟩
  · intro hfault
    refine ⟨fun h => ⟨ea_of_le h, memRead_of_ea (ea_of_le h)⟩, fun h => ?_, fun h => ?_, fun h => ?_⟩
    · have hnone : ea s.cfg a = none := ea_eq_none.mpr ⟨hfault, h⟩
      exact ⟨hnone, memRead_of_ea_none hnone⟩
    · exact ⟨_, memReadWord_of_ea (ea_of_le (Nat.le_of_succ_le h)) (ea_of_le h),
        append_bytes_toNat _ _⟩
    · exact memReadWord_eq_none.mpr ⟨hfault, h⟩

/-! ### The byte write (20_memory.md R44) -/

theorem memWrite_stores (he : ea s.cfg a = some e)
    (h : Config.inFont s.cfg e = false ∨ s.cfg.fontWrite = .allow) :
    s.memWrite a b = some (s.setMem (Memory.write s.cfg s.mem e b)) := by
  unfold State.memWrite
  rcases h with h | h
  · simp [he, h]
  · simp [he, h]

theorem memWrite_dropped (he : ea s.cfg a = some e) (hf : Config.inFont s.cfg e = true)
    (hw : s.cfg.fontWrite = .ignore) : s.memWrite a b = some s := by
  unfold State.memWrite
  simp [he, hf, hw]

/-- Settles O30: what each path of the write answers (`memWrite_stores`, `memWrite_dropped`,
`memWrite_eq_none`); the byte stored is read back by `Memory.read_write`. -/
theorem writeChangesOneByte : Obligations.WriteChangesOneByte := by
  intro s a b
  refine ⟨fun hnone => memWrite_eq_none.mpr (.inl hnone), fun e he => ⟨fun h => ?_, memWrite_dropped he,
    fun hf hw => memWrite_eq_none.mpr (.inr ⟨e, he, hw, hf⟩)⟩⟩
  refine ⟨_, memWrite_stores he h, ?_, fun x hx => ?_, rfl⟩
  · rw [byteAt_setMem, Memory.read_write, if_pos rfl]
  · rw [byteAt_setMem, Memory.read_write, if_neg (Ne.symm hx)]
    rfl

/-! ### Spans (20_memory.md R50, R58) -/

/-- Settles O31: byte `k` of the list that `spanRead_eq_some` gives, and `spanRead_eq_none`. -/
theorem spansAreByteWise : Obligations.SpansAreByteWise := by
  intro s a n
  refine ⟨fun h => ⟨_, spanRead_eq_some.mpr ⟨rfl, h⟩, by simp, fun k hk => ?_⟩,
    fun hfault hpast => spanRead_eq_none.mpr ⟨hfault, hpast⟩⟩
  rw [List.getElem?_map, List.getElem?_range hk, Option.map_some]

/-! ### The fetch after a store (20_memory.md R56) -/

theorem writeLands_of_allow (h : s.cfg.fontWrite = .allow) (a : Nat) : WriteLands s a := by
  simp [WriteLands, h]

theorem writesAllowed_of_allow (hwrap : s.cfg.addrPolicy = .wrap) (h : s.cfg.fontWrite = .allow)
    (n : Nat) : WritesAllowed s n := by
  simp [WritesAllowed, ReadsAllowed, hwrap, h]

/-- The bytes a block store leaves: `V[k]` at the address of byte `k`, unless that byte is dropped. -/
theorem spanWrite_regsUpTo_byteAt {x k : Reg} (hk : k ≤ x)
    (h : State.spanWrite (s.indexAddr 0) (s.regsUpTo x) s = some t)
    (he : ea s.cfg (s.indexAddr k.val) = some e) (hl : WriteLands s e) : t.byteAt e = s.getV k := by
  have hlen : (s.regsUpTo x).length = x.val + 1 := regsUpTo_length s x
  have hklen : k.val < (s.regsUpTo x).length := hlen ▸ Nat.lt_succ_of_le hk
  have hfit : (s.regsUpTo x).length ≤ 4096 := by omega
  rw [(spanWrite_same h hfit hklen he).1 hl, regsUpTo_getElem]

/-- Settles O53: the store completes and leaves V0 and V1 (`spanWrite_regsUpTo_byteAt`) at the two
addresses of the next fetch, which `pc` and `I` name alike modulo 4096. -/
theorem nextFetchSeesTheStore : Obligations.NextFetchSeesTheStore := by
  intro s t x hx hwrap hallow hpc h
  obtain ⟨u, hu⟩ :=
    spanWrite_of_allowed (bs := s.regsUpTo x) (writesAllowed_of_allow hwrap hallow _)
  rw [exec_stRegs_ok hu] at h
  cases h
  have hstored : ∀ k : Reg, k ≤ x → u.byteAt ((s.pc.toNat + k.val) % 4096) = s.getV k := by
    intro k hk
    have hea : ea s.cfg (s.indexAddr k.val) = some ((s.pc.toNat + k.val) % 4096) := by
      rw [ea_of_wrap hwrap, State.indexAddr, Nat.add_mod, hpc, ← Nat.add_mod]
    exact spanWrite_regsUpTo_byteAt hk hu hea (writeLands_of_allow hallow _)
  obtain ⟨m, rfl⟩ := spanWrite_fields hu
  refine ⟨_, fetch_some (memReadWord_of_ea (ea_of_wrap hwrap _) (ea_of_wrap hwrap _)), ?_⟩
  exact congrArg₂ (· ++ ·) (hstored 0 (Fin.zero_le x)) (hstored 1 hx)

end Sys2Proof.Machine

/-! PROOFS. The statements of 30_encoding.md. Decode and encode are inverse on the well-formed instructions
and the words (`decodeWord_eq_iff`), so which words decode to an instruction is read off the instruction's
layout. -/

namespace Sys2Proof

open Laws

variable {w : Word}

/-! ### Decode after encode (R60, R64 to R67) -/

theorem decodeWord_encode : ∀ i : Instr, i.WellFormed → decodeWord (encode i) = i
  | .cls => RoundTrip.cls
  | .ret => RoundTrip.ret
  | .jp nnn => RoundTrip.jp nnn
  | .call nnn => RoundTrip.call nnn
  | .seImm x nn => RoundTrip.seImm x nn
  | .sneImm x nn => RoundTrip.sneImm x nn
  | .seReg x y n => RoundTrip.seReg x y n
  | .ldImm x nn => RoundTrip.ldImm x nn
  | .addImm x nn => RoundTrip.addImm x nn
  | .ldReg x y => RoundTrip.ldReg x y
  | .orReg x y => RoundTrip.orReg x y
  | .andReg x y => RoundTrip.andReg x y
  | .xorReg x y => RoundTrip.xorReg x y
  | .addReg x y => RoundTrip.addReg x y
  | .sub x y => RoundTrip.sub x y
  | .shr x y => RoundTrip.shr x y
  | .subn x y => RoundTrip.subn x y
  | .shl x y => RoundTrip.shl x y
  | .sneReg x y n => RoundTrip.sneReg x y n
  | .ldI nnn => RoundTrip.ldI nnn
  | .jpV0 nnn => RoundTrip.jpV0 nnn
  | .rnd x nn => RoundTrip.rnd x nn
  | .drw x y n => RoundTrip.drw x y n
  | .addI x => RoundTrip.addI x
  | .ldF x => RoundTrip.ldF x
  | .ldB x => RoundTrip.ldB x
  | .stRegs x => RoundTrip.stRegs x
  | .ldRegs x => RoundTrip.ldRegs x
  | .errSys nnn => RoundTrip.errSys nnn
  | .errAlu x y n => RoundTrip.errAlu x y n
  | .errE nnn => RoundTrip.errE nnn
  | .errF x nn => RoundTrip.errF x nn

theorem decode_encodeBytes_append (i : Instr) (rest : List Byte) :
    decode (encodeBytes i ++ rest) = .ok (decodeWord (encode i), rest) :=
  congrArg (fun v => Except.ok (decodeWord v, rest)) (wordOfBytes_bytes (encode i))

/-- Settles O1: the two bytes join to the instruction's word (`decode_encodeBytes_append`), which is read
back (`decodeWord_encode`). -/
theorem decodeReadsBackEveryEncoding : Obligations.DecodeReadsBackEveryEncoding := by
  intro i rest hi
  rw [decode_encodeBytes_append, decodeWord_encode i hi]

/-! ### Encode after decode (R70, R72) -/

theorem encFA_eq_iff {op : Nibble} {nnn : Addr} :
    encFA op nnn = w ↔ fieldOp w = op ∧ fieldNNN w = nnn := by
  constructor
  · rintro rfl
    exact ⟨fieldOp_encFA op nnn, fieldNNN_encFA op nnn⟩
  · rintro ⟨rfl, rfl⟩
    exact encFA_fields w

theorem encFXI_eq_iff {op : Nibble} {x : Reg} {nn : Byte} :
    encFXI op x nn = w ↔ fieldOp w = op ∧ fieldX w = x ∧ fieldNN w = nn := by
  constructor
  · rintro rfl
    exact ⟨fieldOp_encFXI op x nn, fieldX_encFXI op x nn, fieldNN_encFXI op x nn⟩
  · rintro ⟨rfl, rfl, rfl⟩
    exact encFXI_fields w

theorem encFXY_eq_iff {op : Nibble} {x y : Reg} {n : Nibble} :
    encFXY op x y n = w ↔ fieldOp w = op ∧ fieldX w = x ∧ fieldY w = y ∧ fieldN w = n := by
  constructor
  · rintro rfl
    exact ⟨fieldOp_encFXY op x y n, fieldX_encFXY op x y n, fieldY_encFXY op x y n,
      fieldN_encFXY op x y n⟩
  · rintro ⟨rfl, rfl, rfl, rfl⟩
    exact encFXY_fields w

theorem encFA_fields_of_op {op : Nibble} (h : (fieldOp w).toNat = op.toNat) :
    encFA op (fieldNNN w) = w :=
  encFA_eq_iff.mpr ⟨BitVec.eq_of_toNat_eq h, rfl⟩

theorem encFXI_fields_of_op {op : Nibble} (h : (fieldOp w).toNat = op.toNat) :
    encFXI op (fieldX w) (fieldNN w) = w :=
  encFXI_eq_iff.mpr ⟨BitVec.eq_of_toNat_eq h, rfl, rfl⟩

theorem encFXY_fields_of_op {op : Nibble} (h : (fieldOp w).toNat = op.toNat) :
    encFXY op (fieldX w) (fieldY w) (fieldN w) = w :=
  encFXY_eq_iff.mpr ⟨BitVec.eq_of_toNat_eq h, rfl, rfl, rfl⟩

/-- One case per leading nibble (R64): `encode` writes the category's layout with the fields decoded. -/
theorem decodeWord_spec (w : Word) : (decodeWord w).WellFormed ∧ encode (decodeWord w) = w := by
  unfold decodeWord
  split
  next h => exact (decodeSys_spec _).imp_right (·.trans <| encFA_fields_of_op h)
  next h => exact ⟨rfl, encFA_fields_of_op h⟩
  next h => exact ⟨rfl, encFA_fields_of_op h⟩
  next h => exact ⟨rfl, encFXI_fields_of_op h⟩
  next h => exact ⟨rfl, encFXI_fields_of_op h⟩
  next h => exact ⟨rfl, encFXY_fields_of_op h⟩
  next h => exact ⟨rfl, encFXI_fields_of_op h⟩
  next h => exact ⟨rfl, encFXI_fields_of_op h⟩
  next h => exact (decodeAlu_spec _ _ _).imp_right (·.trans <| encFXY_fields_of_op h)
  next h => exact ⟨rfl, encFXY_fields_of_op h⟩
  next h => exact ⟨rfl, encFA_fields_of_op h⟩
  next h => exact ⟨rfl, encFA_fields_of_op h⟩
  next h => exact ⟨rfl, encFXI_fields_of_op h⟩
  next h => exact ⟨rfl, encFXY_fields_of_op h⟩
  next h => exact ⟨rfl, encFA_fields_of_op h⟩
  next =>
    have h : (fieldOp w).toNat = 0xF := by
      have := (fieldOp w).isLt
      simp only [imp_false] at *
      omega
    exact (decodeF_spec _ _).imp_right (·.trans <| encFXI_fields_of_op h)

theorem decodeWord_eq_iff {i : Instr} : decodeWord w = i ↔ i.WellFormed ∧ encode i = w := by
  constructor
  · rintro rfl
    exact decodeWord_spec w
  · rintro ⟨hi, rfl⟩
    exact decodeWord_encode i hi

/-- Settles O2: `decodeWord_spec`, and any instruction with this word is what the word decodes to
(`decodeWord_eq_iff`). -/
theorem everyWordIsOneInstruction : Obligations.EveryWordIsOneInstruction := by
  intro w
  obtain ⟨hwf, henc⟩ := decodeWord_spec w
  exact ⟨hwf, henc, fun i hi hw => (decodeWord_eq_iff.mpr ⟨hi, hw⟩).symm⟩

/-! ### The error classes (R69) -/

theorem fieldOp_eq_iff {op : Nibble} : fieldOp w = op ↔ w.toNat / 4096 = op.toNat := by
  rw [← BitVec.toNat_inj, fieldOp_toNat]

theorem errSys_wellFormed_iff {nnn : Addr} :
    (Instr.errSys nnn).WellFormed ↔ nnn.toNat ≠ 0x0E0 ∧ nnn.toNat ≠ 0x0EE := by
  simp [Instr.WellFormed, Instr.wf, assignedSys, ← BitVec.toNat_inj]

theorem errAlu_wellFormed_iff {x y : Reg} {n : Nibble} :
    (Instr.errAlu x y n).WellFormed ↔ n.toNat ∈ [0x8, 0x9, 0xA, 0xB, 0xC, 0xD, 0xF] := by
  show (!assignedAlu n) = true ↔ _
  revert n
  decide

theorem errF_wellFormed_iff {x : Reg} {nn : Byte} :
    (Instr.errF x nn).WellFormed ↔ nn.toNat ∉ [0x1E, 0x29, 0x33, 0x55, 0x65] := by
  simp [Instr.WellFormed, Instr.wf, assignedF, ← BitVec.toNat_inj, and_assoc]

theorem exists_decodeWord_eq_errSys_iff :
    (∃ nnn, decodeWord w = .errSys nnn) ↔ w.toNat < 0x1000 ∧ w ≠ 0x00E0 ∧ w ≠ 0x00EE := by
  have hword : (∃ nnn, decodeWord w = .errSys nnn) ↔
      w.toNat / 4096 = 0x0 ∧ w.toNat % 4096 ≠ 0x0E0 ∧ w.toNat % 4096 ≠ 0x0EE := by
    simp [decodeWord_eq_iff, errSys_wellFormed_iff, encode, encFA_eq_iff, fieldOp_eq_iff,
      fieldNNN_toNat, and_comm, and_assoc]
  rw [hword, ← BitVec.toNat_ne_iff_ne, ← BitVec.toNat_ne_iff_ne]
  show _ ↔ _ ∧ w.toNat ≠ 0xE0 ∧ w.toNat ≠ 0xEE
  omega

theorem exists_decodeWord_eq_errAlu_iff :
    (∃ x y n, decodeWord w = .errAlu x y n) ↔
      w.toNat / 4096 = 0x8 ∧ w.toNat % 16 ∈ [0x8, 0x9, 0xA, 0xB, 0xC, 0xD, 0xF] := by
  simp [decodeWord_eq_iff, errAlu_wellFormed_iff, encode, encFXY_eq_iff, fieldOp_eq_iff,
    fieldN_toNat, and_comm]

theorem exists_decodeWord_eq_errE_iff :
    (∃ nnn, decodeWord w = .errE nnn) ↔ w.toNat / 4096 = 0xE := by
  simp [decodeWord_eq_iff, Instr.WellFormed, Instr.wf, encode, encFA_eq_iff, fieldOp_eq_iff]

theorem exists_decodeWord_eq_errF_iff :
    (∃ x nn, decodeWord w = .errF x nn) ↔
      w.toNat / 4096 = 0xF ∧ w.toNat % 256 ∉ [0x1E, 0x29, 0x33, 0x55, 0x65] := by
  simp [decodeWord_eq_iff, errF_wellFormed_iff, encode, encFXI_eq_iff, fieldOp_eq_iff,
    fieldNN_toNat, and_comm]

/-- Settles O5: a word is in a class when an instruction of the class is well formed and has the word
(`decodeWord_eq_iff`). -/
theorem errorClassesAreTheUnassignedWords : Obligations.ErrorClassesAreTheUnassignedWords := fun _ =>
  ⟨exists_decodeWord_eq_errSys_iff, exists_decodeWord_eq_errAlu_iff, exists_decodeWord_eq_errE_iff,
    exists_decodeWord_eq_errF_iff⟩

/-! ### The fields as numbers (R61) -/

/-- Settles O3: the law of each field. -/
theorem fieldsSitAtTheirBits : Obligations.FieldsSitAtTheirBits := fun w =>
  ⟨fieldOp_toNat w, fieldX_val w, fieldY_val w, fieldN_toNat w, fieldNN_toNat w, fieldNNN_toNat w⟩

end Sys2Proof

/-! PROOFS. The statements of 40_fetch_decode.md: the error classes, the step as fetch, decode and execute,
and the failed fetch. A step is read off its two equations, `step_of_fetch` and `step_of_no_fetch`. -/

namespace Sys2Proof.Machine

variable {s : State}

/-! ### The error classes (R85 to R89) -/

theorem sameStores_report (k : StatusKind) : SameStores s (s.report k) :=
  ⟨⟨report_sp s k, fun _ => rfl⟩, fun a _ => report_byteAt s k a, report_pixel s k,
    report_cfg s k, report_ir s k, report_rnd s k, report_draws s k, report_booted s k⟩

theorem onlyReports_report (k : StatusKind) : OnlyReports k s (s.report k) :=
  ⟨fun r _ => report_getV s k r, report_pc s k, report_I s k, sameStores_report k,
    report_status s k, report_record s k⟩

/-- Settles O36: each class answers the state with its report, which has no other effect
(`onlyReports_report`). -/
theorem errorClassesOnlyReport : Obligations.ErrorClassesOnlyReport := fun _ _ _ _ _ _ =>
  ⟨⟨_, rfl, onlyReports_report _⟩, ⟨_, rfl, onlyReports_report _⟩, ⟨_, rfl, onlyReports_report _⟩,
    ⟨_, rfl, onlyReports_report _⟩⟩

/-! ### The step that fetches (R80, R81) -/

theorem decode_pair (hi lo : Byte) : decode [hi, lo] = .ok (decodeWord (hi ++ lo), []) := rfl

/-- Settles O37: the two bytes are the word fetched (`memReadWord_eq_some`), which decodes to `i`
(`decode_pair`), so the step is `step_of_fetch`. -/
theorem stepRunsTheDecodedInstruction : Obligations.StepRunsTheDecodedInstruction := by
  intro s u hi lo i hs hhi hlo hi' he
  have hw : s.memReadWord s.pc.toNat = some (hi ++ lo) :=
    memReadWord_eq_some.mpr ⟨hi, lo, hhi, hlo, rfl⟩
  obtain rfl : decodeWord (hi ++ lo) = i := by
    rw [decode_pair] at hi'
    exact congrArg Prod.fst (Except.ok.inj hi')
  exact step_of_fetch hs hw he

/-! ### The failed fetch (R81) -/

theorem fetchFailed_status : (fetchFailed s).status = some ⟨.invalidMemoryAccess, 0x0000⟩ := rfl

/-- Settles O38: both steps are `step_of_no_fetch`, since the first changes neither `pc` nor the parameters,
which decide whether a fetch fails (`memReadWord_eq_none`). -/
theorem failedFetchIsReportedAndRepeats : Obligations.FailedFetchIsReportedAndRepeats := by
  intro s hs hfault hpc
  have hnone : s.memReadWord s.pc.toNat = none := memReadWord_eq_none.mpr ⟨hfault, hpc⟩
  have hagain : (fetchFailed s).nextInput.memReadWord (fetchFailed s).nextInput.pc.toNat = none :=
    memReadWord_eq_none.mpr ⟨hfault, hpc⟩
  exact ⟨_, step_of_no_fetch hs hnone, fetchFailed_status, rfl, rfl, fun _ _ => rfl, rfl,
    ⟨rfl, fun _ => rfl⟩, fun _ _ => rfl, fun _ _ => rfl, rfl,
    _, step_of_no_fetch hs hagain, fetchFailed_status, rfl⟩

/-! ### Every step (R80, R84, R200) -/

/-- Settles O39: the word is fetched and the instruction answers a report of it (`exec_next`), or the fetch
fails (`step_of_no_fetch`); before the first bootstrap, `step_of_not_booted`. -/
theorem everyStepReturnsOneStatus : Obligations.EveryStepReturnsOneStatus := by
  refine fun s => ⟨fun hs => ?_, step_of_not_booted⟩
  cases hw : s.memReadWord s.pc.toNat with
  | none =>
    exact ⟨_, _, step_of_no_fetch hs hw, hs, .inr ⟨rfl, rfl, fetchFailed_status⟩⟩
  | some w =>
    obtain ⟨k, u, he, hu, -⟩ := exec_next (decodeWord w) (fetched s w)
    have hir : u.ir = w := congrArg State.ir hu
    have hbooted : u.booted = true := (congrArg State.booted hu).trans hs
    refine ⟨_, k, step_of_fetch hs hw he, hbooted, .inl ⟨w, rfl, ?_⟩⟩
    rw [nextInput_status, report_status, hir]

end Sys2Proof.Machine

/-! PROOFS. The statements of 41_control.md: jumps, the call and its return, and the skips. What a jump
leaves alone is said once, over the stack as it was (`setPc_report_frame`) and over another
(`setStack_setPc_report_frame`); the four skips are one lemma (`done_skipIf`). -/

namespace Sys2Proof.Machine

variable {s : State}

/-! ### Jumps (R100, R110) -/

theorem setPc_report_frame (p : Word) (k : StatusKind) :
    SameRegs [] s ((s.setPc p).report k) ∧ ((s.setPc p).report k).I = s.I ∧
      SameStores s ((s.setPc p).report k) ∧ Reports k s ((s.setPc p).report k) := by
  obtain ⟨hregs, -, hI, hstores, hreports⟩ := onlyReports_report (s := s.setPc p) k
  exact ⟨hregs, hI, hstores, hreports⟩

/-- Settles O6: the address is `zextAddr_toNat`, the frame `setPc_report_frame`. -/
theorem jpJumpsToItsAddress : Obligations.JpJumpsToItsAddress :=
  ⟨fun _ h => decodeWord_eq h, fun nnn _ => ⟨_, rfl, zextAddr_toNat nnn, setPc_report_frame _ _⟩⟩

/-- Settles O11: the sum does not wrap (`jpV0_target`); the frame is `setPc_report_frame`. -/
theorem jpV0AddsV0 : Obligations.JpV0AddsV0 :=
  ⟨fun _ h => decodeWord_eq h, fun nnn _ => ⟨_, rfl, jpV0_target nnn _, setPc_report_frame _ _⟩⟩

/-! ### Call and return (R101, R102, R108) -/

theorem setStack_setPc_report_frame (d : Fin 17) (st : Vector Word 16) (p : Word) (k : StatusKind) :
    let t := ((s.setStack d st).setPc p).report k
    SameRegs [] s t ∧ t.I = s.I ∧ SameMem s t ∧ SameFb s t ∧ SameRest s t ∧ Reports k s t := by
  obtain ⟨hregs, hI, ⟨-, hmem, hfb, hrest⟩, hreports⟩ :=
    setPc_report_frame (s := s.setStack d st) p k
  exact ⟨hregs, hI, hmem, hfb, hrest, hreports⟩

theorem decodeWord_eq_ret_iff {w : Word} : decodeWord w = .ret ↔ w = 0x00EE := by
  have hwf : Instr.ret.WellFormed := rfl
  have henc : encode .ret = 0x00EE := by decide
  rw [decodeWord_eq_iff, henc, and_iff_right hwf, eq_comm]

/-- Settles O7: the two paths of `00EE` are `exec_ret_ok` and `exec_ret_empty`. -/
theorem retPopsIntoPcOrUnderflows : Obligations.RetPopsIntoPcOrUnderflows := by
  refine ⟨fun _ => decodeWord_eq_ret_iff, fun s => ⟨fun h => ?_, fun h => ?_⟩⟩
  · exact ⟨_, exec_ret_ok h, rfl, rfl, fun _ => rfl, setStack_setPc_report_frame _ _ _ _⟩
  · exact ⟨_, exec_ret_empty h, onlyReports_report _⟩

/-- Settles O8: the two paths of `2NNN` are `exec_call_ok` and `exec_call_full`; the push writes the slot
at the old depth and no other. -/
theorem callPushesPcOrOverflows : Obligations.CallPushesPcOrOverflows := by
  refine ⟨fun _ h => decodeWord_eq h, fun nnn s => ⟨fun h => ?_, fun h => ?_⟩⟩
  · exact ⟨_, exec_call_ok nnn h, zextAddr_toNat nnn, rfl, Vector.getElem_set_self h,
      fun _ hk => Vector.getElem_set_ne h _ (Ne.symm hk), setStack_setPc_report_frame _ _ _ _⟩
  · exact ⟨_, exec_call_full nnn h, onlyReports_report _⟩

/-- Settles O14: the depth the call leaves is above 0, so `00EE` takes the path of `exec_ret_ok` and reads
the slot that the call wrote. -/
theorem returnGoesAfterTheCall : Obligations.ReturnGoesAfterTheCall := by
  intro nnn s h
  refine ⟨_, exec_call_ok nnn h, fun u hsp hstk => ?_⟩
  have hdepth : u.sp.val = s.sp.val + 1 := congrArg Fin.val hsp
  have htop : u.stk[u.sp.val - 1]'(by omega) = s.pc := by
    rw [Vector.getElem_eq_iff, hstk, hdepth]
    exact Vector.getElem?_set_self h
  refine ⟨_, exec_ret_ok (by omega), htop, Fin.ext ?_⟩
  exact Nat.sub_eq_of_eq_add hdepth

/-! ### Skips (R103 to R107) -/

/-- What a skip answers, its test read as a proposition on either side. -/
theorem done_skipIf {c : Bool} {p q : Prop} (hp : p → c = true) (hq : q → c = false) :
    ∃ t, done (s.skipIf c) = .next t ∧
      (p → t.pc.toNat = (s.pc.toNat + 2) % 65536) ∧ (q → t.pc = s.pc) ∧
      SameRegs [] s t ∧ t.I = s.I ∧ SameStores s t ∧ Reports .success s t := by
  rw [skipIf_eq_setPc]
  refine ⟨_, rfl, fun h => ?_, fun h => ?_, setPc_report_frame _ _⟩
  · rw [report_pc, setPc_pc, if_pos (hp h)]
    exact BitVec.toNat_add s.pc 2
  · rw [report_pc, setPc_pc, hq h]
    rfl

/-- Settles O9: both are `done_skipIf`, on the equality test and on its negation. -/
theorem immediateSkips : Obligations.ImmediateSkips :=
  ⟨fun _ h => decodeWord_eq h, fun _ h => decodeWord_eq h, fun _ _ _ =>
    ⟨done_skipIf beq_iff_eq.mpr beq_eq_false_iff_ne.mpr,
      done_skipIf bne_iff_ne.mpr bne_eq_false_iff_eq.mpr⟩⟩

/-- Settles O10: as for the immediate skips; the arms of `exec` drop `n`. -/
theorem registerSkips : Obligations.RegisterSkips :=
  ⟨fun _ h => decodeWord_eq h, fun _ h => decodeWord_eq h, fun _ _ _ _ =>
    ⟨done_skipIf beq_iff_eq.mpr beq_eq_false_iff_ne.mpr,
      done_skipIf bne_iff_ne.mpr bne_eq_false_iff_eq.mpr⟩⟩

end Sys2Proof.Machine

/-! PROOFS. The statements of 42_alu.md: register loads and the ALU. Every arm answers `setV` or
`setResultFlag` with a report, so what it leaves alone is said once for each (`setV_report_frame`,
`setResultFlag_report_frame`); what remains of a statement is the value written and the flag. -/

namespace Sys2Proof.Machine

variable {s : State}

/-! ### What a write of variable registers leaves alone -/

theorem withV_report_frame (v : Vector Byte 16) (k : StatusKind) :
    let t := { s with v := v }.report k
    t.pc = s.pc ∧ t.I = s.I ∧ SameStores s t ∧ Reports k s t := by
  obtain ⟨-, hpc, hI, hstores, hreports⟩ := onlyReports_report (s := { s with v := v }) k
  exact ⟨hpc, hI, hstores, hreports⟩

theorem setV_report_frame (x : Reg) (r : Byte) (k : StatusKind) :
    let t := (s.setV x r).report k
    SameRegs [x] s t ∧ t.pc = s.pc ∧ t.I = s.I ∧ SameStores s t ∧ Reports k s t :=
  ⟨fun _ h => setV_getV_other s r (List.ne_of_not_mem_cons h), withV_report_frame _ k⟩

theorem setResultFlag_getV_vf (x : Reg) (r : Byte) (f : Bool) :
    (s.setResultFlag x r f).getV vf = flagByte f := by
  rw [setResultFlag_getV, if_pos rfl]

theorem setResultFlag_getV_result {x : Reg} (hx : x ≠ vf) (r : Byte) (f : Bool) :
    (s.setResultFlag x r f).getV x = r := by
  rw [setResultFlag_getV, if_neg hx, if_pos rfl]

theorem setResultFlag_report_frame (x : Reg) (r : Byte) (f : Bool) (k : StatusKind) :
    let t := (s.setResultFlag x r f).report k
    SameRegs [x, vf] s t ∧ t.pc = s.pc ∧ t.I = s.I ∧ SameStores s t ∧ Reports k s t := by
  refine ⟨fun q hq => ?_, withV_report_frame _ k⟩
  obtain ⟨hqx, hqf⟩ : q ≠ x ∧ q ≠ vf := by simpa using hq
  rw [report_getV, setResultFlag_getV, if_neg hqf, if_neg hqx]

/-! ### Decoding category 0x8 (30_encoding.md R66) -/

theorem decodeWord_eq_decodeAlu {w : Word} {n : Nibble} (hop : fieldOp w = 0x8#4)
    (hn : fieldN w = n) : decodeWord w = decodeAlu (fieldX w) (fieldY w) n :=
  hn ▸ decodeWord_eq hop

/-! ### Loads, the immediate sum and the bitwise operations (R121 to R126, R132) -/

/-- Settles O15: the byte is read back by `setV_getV_same`; the frame is `setV_report_frame`. -/
theorem ldImmLoadsTheByte : Obligations.LdImmLoadsTheByte :=
  ⟨fun _ h => decodeWord_eq h,
    fun x nn s => ⟨_, rfl, setV_getV_same s x nn, setV_report_frame x nn _⟩⟩

/-- Settles O16: `BitVec` addition is modulo 256, and only `V[x]` is written (`setV_report_frame`). -/
theorem addImmWrapsWithoutFlag : Obligations.AddImmWrapsWithoutFlag := by
  refine ⟨fun _ h => decodeWord_eq h, fun x nn s => ⟨_, rfl, ?_, setV_report_frame x _ _⟩⟩
  rw [report_getV, setV_getV_same]
  exact BitVec.toNat_add _ _

/-- Settles O17: as for the immediate load, with `V[y]` for the byte. -/
theorem ldRegCopies : Obligations.LdRegCopies :=
  ⟨fun _ => decodeWord_eq_decodeAlu,
    fun x y s => ⟨_, rfl, setV_getV_same s x (s.getV y), setV_report_frame x _ _⟩⟩

/-- Settles O18: each bit of a bitwise operation on words is the operation on their bits; the frame is
`setV_report_frame`. -/
theorem logicOpsLeaveVFAlone : Obligations.LogicOpsLeaveVFAlone := by
  refine ⟨fun _ h =>
      ⟨decodeWord_eq_decodeAlu h, decodeWord_eq_decodeAlu h, decodeWord_eq_decodeAlu h⟩,
    fun x y s => ⟨⟨_, rfl, fun b _ => ?_, setV_report_frame x _ _⟩,
      ⟨_, rfl, fun b _ => ?_, setV_report_frame x _ _⟩,
      ⟨_, rfl, fun b _ => ?_, setV_report_frame x _ _⟩⟩⟩
  · rw [report_getV, setV_getV_same, BitVec.getLsbD_or]
  · rw [report_getV, setV_getV_same, BitVec.getLsbD_and]
  · rw [report_getV, setV_getV_same, BitVec.getLsbD_xor]

/-- Settles O22: the arm reads the byte supplied; the frame is `setV_report_frame` from the state with
that byte, which differs from `s` in the step's input alone. -/
theorem rndMasksTheSuppliedByte : Obligations.RndMasksTheSuppliedByte := by
  refine ⟨fun _ h => decodeWord_eq h, fun x nn rnd s => ⟨_, rfl, fun b _ => ?_, ?_⟩⟩
  · rw [report_getV, setV_getV_same, withRnd_rnd, BitVec.getLsbD_and]
  · obtain ⟨hregs, hpc, hI, ⟨hstack, hmem, hfb, hrest⟩, hreports⟩ :=
      setV_report_frame (s := s.withRnd rnd) x (rnd &&& nn) .success
    exact ⟨hregs, hpc, hI, hstack, hmem, hfb, hrest, hreports⟩

/-! ### Operations with a flag, written last (R127 to R131) -/

theorem flagByte_decide_of {p : Prop} [Decidable p] (h : p) : flagByte (decide p) = 1 := by
  rw [decide_eq_true h, flagByte_true]

theorem flagByte_decide_of_not {p : Prop} [Decidable p] (h : ¬ p) : flagByte (decide p) = 0 := by
  rw [decide_eq_false h, flagByte_false]

/-- Settles O19: the carry is what VF reads, whatever `x` (`setResultFlag_getV_vf`). -/
theorem addRegSetsCarry : Obligations.AddRegSetsCarry := by
  refine ⟨fun _ => decodeWord_eq_decodeAlu, fun x y s =>
    ⟨_, rfl, fun hx => ?_, fun h => ?_, fun h => ?_, setResultFlag_report_frame x _ _ _⟩⟩
  · rw [report_getV, setResultFlag_getV_result hx]
    exact BitVec.toNat_add _ _
  · rw [report_getV, setResultFlag_getV_vf, carryOut, flagByte_decide_of h]
  · rw [report_getV, setResultFlag_getV_vf, carryOut, flagByte_decide_of_not (Nat.not_lt.mpr h)]

theorem byte_sub_toNat (a b : Byte) : (a - b).toNat = (256 + a.toNat - b.toNat) % 256 := by
  rw [BitVec.toNat_sub]
  omega

/-- What a subtraction answers, in either operand order (R128, R130). -/
theorem done_subtract (x : Reg) (a b : Byte) :
    ∃ t, done (s.setResultFlag x (a - b) (noBorrow a b)) = .next t ∧
      (x ≠ vf → (t.getV x).toNat = (256 + a.toNat - b.toNat) % 256) ∧
      (b.toNat ≤ a.toNat → t.getV vf = 1) ∧ (a.toNat < b.toNat → t.getV vf = 0) ∧
      SameRegs [x, vf] s t ∧ t.pc = s.pc ∧ t.I = s.I ∧ SameStores s t ∧ Reports .success s t := by
  refine ⟨_, rfl, fun hx => ?_, fun h => ?_, fun h => ?_, setResultFlag_report_frame x _ _ _⟩
  · rw [report_getV, setResultFlag_getV_result hx, byte_sub_toNat]
  · rw [report_getV, setResultFlag_getV_vf, noBorrow, flagByte_decide_of h]
  · rw [report_getV, setResultFlag_getV_vf, noBorrow, flagByte_decide_of_not (Nat.not_le.mpr h)]

/-- Settles O20: both are `done_subtract`, on `V[x]` and `V[y]` in the two orders. -/
theorem subtractsSetNotBorrow : Obligations.SubtractsSetNotBorrow :=
  ⟨fun _ h => ⟨decodeWord_eq_decodeAlu h, decodeWord_eq_decodeAlu h⟩,
    fun x _ _ => ⟨done_subtract x _ _, done_subtract x _ _⟩⟩

/-- The operand under either setting of `SHIFT_SOURCE` (R129, R131). -/
theorem shiftOperand_eq {x y : Reg} {a : Byte}
    (h : (s.cfg.shiftSource = .vx ∧ a = s.getV x) ∨ (s.cfg.shiftSource = .vy ∧ a = s.getV y)) :
    s.shiftOperand x y = a := by
  unfold State.shiftOperand
  obtain ⟨hsource, rfl⟩ | ⟨hsource, rfl⟩ := h <;> rw [hsource]

theorem byte_ushiftRight_one_toNat (a : Byte) : (a >>> 1).toNat = a.toNat / 2 := by
  rw [BitVec.toNat_ushiftRight, Nat.shiftRight_one]

theorem byte_shiftLeft_one_toNat (a : Byte) : (a <<< 1).toNat = a.toNat * 2 % 256 := by
  rw [BitVec.toNat_shiftLeft, Nat.shiftLeft_eq, pow_one]

/-- Settles O21: the operand is `a` (`shiftOperand_eq`), and VF reads the bit shifted out, whatever `x`
(`flagByte_lowBit`, `flagByte_highBit`). -/
theorem shiftsSetTheBitShiftedOut : Obligations.ShiftsSetTheBitShiftedOut := by
  refine ⟨fun _ h => ⟨decodeWord_eq_decodeAlu h, decodeWord_eq_decodeAlu h⟩, fun x y s a h => ?_⟩
  obtain rfl := shiftOperand_eq h
  refine ⟨⟨_, rfl, fun hx => ?_, ?_, setResultFlag_report_frame x _ _ _⟩,
    ⟨_, rfl, fun hx => ?_, ?_, setResultFlag_report_frame x _ _ _⟩⟩
  · rw [report_getV, setResultFlag_getV_result hx, byte_ushiftRight_one_toNat]
  · rw [report_getV, setResultFlag_getV_vf, flagByte_lowBit]
  · rw [report_getV, setResultFlag_getV_result hx, byte_shiftLeft_one_toNat]
  · rw [report_getV, setResultFlag_getV_vf, flagByte_highBit]

end Sys2Proof.Machine

/-! PROOFS. The statements of 43_index_memory.md: the writers of `I` and the block accesses from it. What a
write of `I` leaves alone is said once (`setI_report_frame`), and the two block stores are one lemma about
the bytes stored (`spanWrite_block`). -/

namespace Sys2Proof.Machine

variable {s : State}

/-! ### Decoding category 0xF (30_encoding.md R67) -/

theorem decodeWord_eq_decodeF {w : Word} {nn : Byte} (hop : fieldOp w = 0xF#4)
    (hnn : fieldNN w = nn) : decodeWord w = decodeF (fieldX w) nn :=
  hnn ▸ decodeWord_eq hop

/-! ### What the writes of `I`, of a block of registers and of memory leave alone -/

theorem setI_report_frame (w : Word) (k : StatusKind) :
    let t := (s.setI w).report k
    SameRegs [] s t ∧ t.pc = s.pc ∧ SameStores s t ∧ Reports k s t := by
  obtain ⟨hregs, hpc, -, hstores, hreports⟩ := onlyReports_report (s := s.setI w) k
  exact ⟨hregs, hpc, hstores, hreports⟩

theorem setMem_setI_report_frame (m : Memory) (w : Word) (k : StatusKind) :
    let t := ((s.setMem m).setI w).report k
    SameRegs [] s t ∧ t.pc = s.pc ∧ SameStack s t ∧ SameFb s t ∧ SameRest s t ∧ Reports k s t := by
  obtain ⟨hregs, hpc, ⟨hstack, -, hfb, hrest⟩, hreports⟩ := setI_report_frame (s := s.setMem m) w k
  exact ⟨hregs, hpc, hstack, hfb, hrest, hreports⟩

theorem setRange_setI_report_frame (j : Nat) (bs : List Byte) (w : Word) (k : StatusKind) :
    let t := ((State.setRange j bs s).setI w).report k
    t.pc = s.pc ∧ SameStores s t ∧ Reports k s t := by
  obtain ⟨v, hv⟩ := setRange_fields s bs j
  rw [hv]
  exact (setI_report_frame (s := { s with v := v }) w k).2

/-! ### `I` after a block transfer (R155) -/

theorem indexAfterBlock_keep (x : Reg) (h : s.cfg.ldstIMode = .keep) : s.indexAfterBlock x = s.I := by
  rw [State.indexAfterBlock, h]

theorem indexAfterBlock_advance_toNat (x : Reg) (h : s.cfg.ldstIMode = .advance) :
    (s.indexAfterBlock x).toNat = (s.I.toNat + x.val + 1) % 4096 := by
  rw [State.indexAfterBlock, h, Nat.add_assoc]
  exact indexPlus_toNat _ _

/-! ### The block store -/

/-- What a block store from `I` answers when every address is accepted: at each address the byte of the
list, unless `FONT_WRITE` drops it, and every other byte as before (20_memory.md R44, R50). -/
theorem spanWrite_block {bs : List Byte} (hlen : bs.length ≤ memSize)
    (h : WritesAllowed s bs.length) :
    ∃ m, State.spanWrite (s.indexAddr 0) bs s = some (s.setMem m) ∧
      (∀ k (hk : k < bs.length) a, ea s.cfg (s.indexAddr k) = some a →
        (WriteLands s a → (s.setMem m).byteAt a = bs[k]) ∧
        (¬ WriteLands s a → (s.setMem m).byteAt a = s.byteAt a)) ∧
      SameMemOutside (BlockAddr s bs.length) s (s.setMem m) := by
  obtain ⟨t, ht⟩ := spanWrite_of_allowed h
  obtain ⟨m, rfl⟩ := spanWrite_fields ht
  exact ⟨m, ht, fun k hk a ha => spanWrite_same ht hlen hk ha,
    fun a ha => spanWrite_other ht fun k hk he => ha ⟨k, hk, he⟩⟩

/-- Byte `k` of the digits is the digit of `10 ^ (2 - k)` (R154). -/
theorem decimalDigits_getElem_toNat (b : Byte) {k : Nat} (hk : k < 3) :
    ((decimalDigits b)[k]'hk).toNat = b.toNat / 10 ^ (2 - k) % 10 := by
  have hb := b.isLt
  obtain rfl | rfl | rfl : k = 0 ∨ k = 1 ∨ k = 2 := by omega
  all_goals
    simp only [decimalDigits, List.getElem_cons_zero, List.getElem_cons_succ, BitVec.toNat_ofNat]
    omega

/-- Settles O26: the store of the digits is `spanWrite_block`, digit `k` is `decimalDigits_getElem_toNat`,
and a refused store answers the report alone (`exec_ldB_none`). -/
theorem ldBStoresThreeDigits : Obligations.LdBStoresThreeDigits := by
  refine ⟨fun _ => decodeWord_eq_decodeF, fun x s => ⟨fun h => ?_, fun h => ?_⟩⟩
  · have hfit : (decimalDigits (s.getV x)).length ≤ 4096 := by simp [decimalDigits_length]
    obtain ⟨m, hm, hbytes, hother⟩ := spanWrite_block hfit h
    obtain ⟨hregs, hpc, hframe⟩ := setMem_setI_report_frame (s := s) m s.I .success
    refine ⟨_, exec_ldB_ok hm, fun k a hk ha => ?_, hother, hregs, hpc, rfl, hframe⟩
    obtain ⟨hlands, hdropped⟩ := hbytes k hk a ha
    refine ⟨fun hl => ?_, hdropped⟩
    rw [report_byteAt, hlands hl, decimalDigits_getElem_toNat _ hk]
  · exact ⟨_, exec_ldB_none (spanWrite_of_not_allowed h), onlyReports_report _⟩

/-- Settles O27: the store of the registers is `spanWrite_block`, byte `k` is `V[k]` (`regsUpTo_getElem`),
`I` follows R155, and a refused store answers the report alone (`exec_stRegs_none`). -/
theorem stRegsStoresV0ToVX : Obligations.StRegsStoresV0ToVX := by
  refine ⟨fun _ => decodeWord_eq_decodeF, fun x s => ?_⟩
  have hlen : (s.regsUpTo x).length = x.val + 1 := regsUpTo_length s x
  have hfit : (s.regsUpTo x).length ≤ 4096 := by omega
  rw [← hlen]
  refine ⟨fun h => ?_, fun h => ?_⟩
  · obtain ⟨m, hm, hbytes, hother⟩ := spanWrite_block hfit h
    refine ⟨_, exec_stRegs_ok hm, fun k a hk ha => ?_, hother, indexAfterBlock_keep x,
      indexAfterBlock_advance_toNat x, setMem_setI_report_frame _ _ _⟩
    have hk' : k.val < (s.regsUpTo x).length := hlen ▸ Nat.lt_succ_of_le hk
    exact regsUpTo_getElem s x k hk' ▸ hbytes k hk' a ha
  · exact ⟨_, exec_stRegs_none (spanWrite_of_not_allowed h), onlyReports_report _⟩

/-! ### The block load -/

/-- Settles O28: the bytes loaded are those of `spanRead_of_allowed`, register `k` takes byte `k`
(`setRange_getV`), those past `x` stay (`exec_ldRegs_cases`), `I` follows R155, and a refused load answers
the report alone (`exec_ldRegs_none`). -/
theorem ldRegsLoadsV0ToVX : Obligations.LdRegsLoadsV0ToVX := by
  refine ⟨fun _ => decodeWord_eq_decodeF, fun x s => ⟨fun h => ?_, fun h => ?_⟩⟩
  · have hexec := exec_ldRegs_ok (spanRead_of_allowed h)
    obtain ⟨-, -, -, -, -, hpast⟩ := exec_ldRegs_cases hexec
    refine ⟨_, hexec, fun k hk => ?_, hpast, indexAfterBlock_keep x, indexAfterBlock_advance_toNat x,
      setRange_setI_report_frame 0 _ _ _⟩
    have hk' : k.val < x.val + 1 := Nat.lt_succ_of_le hk
    refine ⟨_, ea_of_allowed h hk', ?_⟩
    rw [report_getV, setI_getV, setRange_getV, dif_pos (by simpa using hk')]
    simp
  · exact ⟨_, exec_ldRegs_none (spanRead_of_not_allowed h), onlyReports_report _⟩

/-! ### The writers of `I` alone (R151, R152, R153) -/

/-- Settles O23: the address is `zextAddr_toNat`, the frame `setI_report_frame`. -/
theorem ldILoadsTheAddress : Obligations.LdILoadsTheAddress :=
  ⟨fun _ h => decodeWord_eq h, fun nnn _ => ⟨_, rfl, zextAddr_toNat nnn, setI_report_frame _ _⟩⟩

/-- Settles O24: past 0xFFF the arm also writes VF (`exec_addI_overflow`), up to it `I` alone
(`exec_addI_in_range`). -/
theorem addIWrapsAt4096 : Obligations.AddIWrapsAt4096 := by
  refine ⟨fun _ => decodeWord_eq_decodeF, fun x s => ?_⟩
  rcases Nat.lt_or_ge 0xFFF (s.I.toNat + (s.getV x).toNat) with h | h
  · obtain ⟨hregs, hpc, -, hframe⟩ :=
      setV_report_frame (s := s.setI (indexPlus s.I (s.getV x).toNat)) vf (flagByte true) .success
    exact ⟨_, exec_addI_overflow h, indexPlus_toNat _ _, fun _ => setV_getV_same _ vf _,
      fun hle => absurd h (Nat.not_lt.mpr hle), hregs, hpc, hframe⟩
  · obtain ⟨hregs, hframe⟩ := setI_report_frame (s := s) (indexPlus s.I (s.getV x).toNat) .success
    exact ⟨_, exec_addI_in_range h, indexPlus_toNat _ _, fun hlt => absurd hlt (Nat.not_lt.mpr h),
      fun _ => hregs vf List.not_mem_nil, fun r _ => hregs r List.not_mem_nil, hframe⟩

/-- Settles O25: the address is `glyphAddr_toNat`, the frame `setI_report_frame`. -/
theorem ldFPointsAtTheGlyph : Obligations.LdFPointsAtTheGlyph :=
  ⟨fun _ => decodeWord_eq_decodeF,
    fun _ _ hl => ⟨_, rfl, glyphAddr_toNat hl _, setI_report_frame _ _⟩⟩

end Sys2Proof.Machine

/-! PROOFS. The statements of 44_display.md: the clear and the sprite draw, and which instructions change the
pixels and memory. A draw is read off what `drawSprite_spec` says of it, one lemma for each part; a canonical
framebuffer is the data its pixels determine (`Framebuffer.ext`). -/

namespace Sys2Proof.Machine

variable {s t : State} {i : Instr}

/-! ### The clear (R170, R173) -/

theorem setFb_report_frame (f : Framebuffer) (k : StatusKind) :
    let t := (s.setFb f).report k
    SameRegs [] s t ∧ t.pc = s.pc ∧ t.I = s.I ∧ SameStack s t ∧ SameMem s t ∧ SameRest s t ∧
      Reports k s t := by
  obtain ⟨hregs, hpc, hI, ⟨hstack, hmem, -, hrest⟩, hreports⟩ :=
    onlyReports_report (s := s.setFb f) k
  exact ⟨hregs, hpc, hI, hstack, hmem, hrest, hreports⟩

theorem decodeWord_eq_cls_iff {w : Word} : decodeWord w = .cls ↔ w = 0x00E0 := by
  have hwf : Instr.cls.WellFormed := rfl
  have henc : encode .cls = 0x00E0 := by decide
  rw [decodeWord_eq_iff, henc, and_iff_right hwf, eq_comm]

/-- Settles O33: a cleared framebuffer reads false (`Framebuffer.get_clear`); the frame is
`setFb_report_frame`. -/
theorem clsClearsEveryPixel : Obligations.ClsClearsEveryPixel :=
  ⟨fun _ => decodeWord_eq_cls_iff,
    fun s => ⟨_, rfl, Framebuffer.get_clear s.cfg, setFb_report_frame _ _⟩⟩

/-! ### The sprite draw (R171) -/

section Draw

variable {c : Config} {cx cy : Byte} {rows : List Byte} {f : Framebuffer} {x y : Nat}

theorem drawSprite_get_of_covers (h : SpriteCovers c cx cy rows x y) :
    Framebuffer.get c (drawSprite c cx cy rows f).1 x y = !Framebuffer.get c f x y := by
  obtain ⟨hcovered, -⟩ := drawSprite_spec c cx cy rows f
  exact hcovered x y h

theorem drawSprite_get_of_not_covers (h : ¬ SpriteCovers c cx cy rows x y) :
    Framebuffer.get c (drawSprite c cx cy rows f).1 x y = Framebuffer.get c f x y := by
  obtain ⟨-, hother, -⟩ := drawSprite_spec c cx cy rows f
  exact hother x y h

theorem drawSprite_collides_iff : (drawSprite c cx cy rows f).2 = true ↔
    ∃ x y, SpriteCovers c cx cy rows x y ∧ Framebuffer.get c f x y = true := by
  obtain ⟨-, -, hcollides, -⟩ := drawSprite_spec c cx cy rows f
  simpa using hcollides

theorem drawSprite_not_collides
    (h : ∀ x y, SpriteCovers c cx cy rows x y → Framebuffer.get c f x y = false) :
    (drawSprite c cx cy rows f).2 = false := by
  rw [← Bool.not_eq_true, drawSprite_collides_iff]
  rintro ⟨x, y, hcov, hset⟩
  exact Bool.false_ne_true ((h x y hcov).symm.trans hset)

theorem drawSprite_wf (h : Framebuffer.wf c f) :
    Framebuffer.wf c (drawSprite c cx cy rows f).1 := by
  obtain ⟨-, -, -, hwf⟩ := drawSprite_spec c cx cy rows f
  exact hwf h

theorem drawSprite_twice_get :
    Framebuffer.get c (drawSprite c cx cy rows (drawSprite c cx cy rows f).1).1 x y =
      Framebuffer.get c f x y := by
  by_cases h : SpriteCovers c cx cy rows x y
  · rw [drawSprite_get_of_covers h, drawSprite_get_of_covers h, Bool.not_not]
  · rw [drawSprite_get_of_not_covers h, drawSprite_get_of_not_covers h]

theorem drawSprite_twice_collides_iff :
    (drawSprite c cx cy rows (drawSprite c cx cy rows f).1).2 = true ↔
      ∃ x y, SpriteCovers c cx cy rows x y ∧ Framebuffer.get c f x y = false := by
  rw [drawSprite_collides_iff]
  refine exists_congr fun x => exists_congr fun y => and_congr_right fun h => ?_
  rw [drawSprite_get_of_covers h, Bool.not_eq_true']

end Draw

/-! ### `DXYN` (R172) -/

theorem setFb_setFlag_report_frame (f : Framebuffer) (b : Bool) (k : StatusKind) :
    let t := ((s.setFb f).setFlag b).report k
    SameRegs [vf] s t ∧ t.pc = s.pc ∧ t.I = s.I ∧ SameStack s t ∧ SameMem s t ∧ SameRest s t ∧
      Reports k s t := by
  obtain ⟨hregs, hpc, hI, ⟨hstack, hmem, -, hrest⟩, hreports⟩ :=
    setV_report_frame (s := s.setFb f) vf (flagByte b) k
  exact ⟨hregs, hpc, hI, hstack, hmem, hrest, hreports⟩

theorem setFb_setFlag_report_getV_vf (f : Framebuffer) (b : Bool) (k : StatusKind) :
    (((s.setFb f).setFlag b).report k).getV vf = flagByte b :=
  setV_getV_same (s.setFb f) vf (flagByte b)

/-- Settles O34: the rows are those of `spanRead_of_allowed`, pixels and collision are those of the draw
(`drawSprite_get_of_covers`, `drawSprite_get_of_not_covers`, `drawSprite_collides_iff`,
`drawSprite_not_collides`), and a refused read answers the report alone (`exec_drw_none`). -/
theorem drwXorsTheSprite : Obligations.DrwXorsTheSprite := by
  refine ⟨fun _ h => decodeWord_eq h, fun x y n s => ⟨fun h => ?_, fun h => ?_⟩⟩
  · refine ⟨_, _, exec_drw_ok (spanRead_of_allowed h), by simp,
      fun k hk => ⟨_, ea_of_allowed h hk, ?_⟩, fun px py => drawSprite_get_of_covers,
      fun px py => drawSprite_get_of_not_covers, fun hset => ?_, fun hclear => ?_,
      setFb_setFlag_report_frame _ _ _⟩
    · rw [List.getElem?_map, List.getElem?_range hk, Option.map_some]
    · rw [setFb_setFlag_report_getV_vf, drawSprite_collides_iff.mpr hset, flagByte_true]
    · rw [setFb_setFlag_report_getV_vf, drawSprite_not_collides hclear, flagByte_false]
  · exact ⟨_, exec_drw_none (spanRead_of_not_allowed h), onlyReports_report _⟩

/-! ### The canonical form is determined by what is read -/

/-- The entries of a canonical list are the readings that differ from what an unlisted key reads as. -/
theorem Cells.mem_iff_get {β : Type} {d : Nat → β} {m : List (Nat × β)} (h : Cells.Wf d m)
    {p : Nat × β} : p ∈ m ↔ Cells.get d m p.1 = p.2 ∧ p.2 ≠ d p.1 := by
  obtain ⟨hsorted, hlisted⟩ := h
  refine ⟨fun hp => ⟨Cells.get_of_mem d hsorted hp, hlisted p hp⟩, fun ⟨hget, hne⟩ => ?_⟩
  by_contra hp
  refine hne (hget.symm.trans (Cells.get_of_not_mem d fun q hq hkey => hp ?_))
  rw [← hkey, Cells.get_of_mem d hsorted hq] at hget
  exact Prod.ext hkey hget ▸ hq

theorem Cells.ext_of_get {β : Type} {d : Nat → β} {m m' : List (Nat × β)} (h : Cells.Wf d m)
    (h' : Cells.Wf d m') (hget : ∀ a, Cells.get d m a = Cells.get d m' a) : m = m' := by
  have : Std.Asymm fun p q : Nat × β => p.1 < q.1 := ⟨fun _ _ => Nat.lt_asymm⟩
  refine h.1.eq_of_mem_iff h'.1 fun p => ?_
  rw [Cells.mem_iff_get h, Cells.mem_iff_get h', hget]

/-- A cell of a canonical framebuffer is the pixel of its number, or no pixel's. -/
theorem Framebuffer.cell_eq {c : Config} {f : Framebuffer} (h : Framebuffer.wf c f) (a : Nat) :
    Cells.get (fun _ => false) f a =
      if a < c.displayW * c.displayH then Framebuffer.get c f (a % c.displayW) (a / c.displayW)
      else false := by
  split
  next ha =>
    have hW : 0 < c.displayW := Nat.pos_of_ne_zero fun h0 => by simp [h0] at ha
    have hin : Framebuffer.inside c (a % c.displayW) (a / c.displayW) = true :=
      Framebuffer.inside_iff.mpr ⟨Nat.mod_lt a hW, Nat.div_lt_of_lt_mul ha⟩
    rw [Framebuffer.get, hin, Bool.true_and, Framebuffer.key, Nat.div_add_mod']
  next ha => exact Cells.get_of_not_mem _ fun p hp e => ha (e ▸ h.2 p hp)

theorem Framebuffer.ext {c : Config} {f g : Framebuffer} (hf : Framebuffer.wf c f)
    (hg : Framebuffer.wf c g) (h : ∀ x y, Framebuffer.get c f x y = Framebuffer.get c g x y) :
    f = g :=
  Cells.ext_of_get hf.1 hg.1 fun a => by rw [cell_eq hf, cell_eq hg, h]

/-- Settles O35: a second draw flips the covered pixels back (`drawSprite_twice_get`) and finds set those
that were clear (`drawSprite_twice_collides_iff`); the data is determined by the pixels
(`Framebuffer.ext`). -/
theorem drawingTwiceRestores : Obligations.DrawingTwiceRestores := fun _ _ _ _ _ =>
  ⟨fun _ _ => drawSprite_twice_get, drawSprite_twice_collides_iff,
    fun hf => Framebuffer.ext (drawSprite_wf (drawSprite_wf hf)) hf fun _ _ => drawSprite_twice_get⟩

/-! ### What changes pixels and memory (R175, R40) -/

/-- Only `00E0` and `DXYN` change pixels, only `FX33` and `FX55` memory: every other instruction answers a
state with the parameters, the pixels and the memory it found. -/
theorem exec_sameFb_sameMem (h : exec i s = .next t) :
    (i ≠ .cls → (∀ x y n, i ≠ .drw x y n) → SameFb s t) ∧
    ((∀ x, i ≠ .ldB x) → (∀ x, i ≠ .stRegs x) → SameMem s t) := by
  cases i
  case cls => cases h; exact ⟨fun hc => absurd rfl hc, fun _ _ _ _ => rfl⟩
  case drw x y n =>
    obtain ⟨k, v, f, rfl, -⟩ := exec_drw_cases h
    exact ⟨fun _ hd => absurd rfl (hd x y n), fun _ _ _ _ => rfl⟩
  case ldB x =>
    obtain ⟨k, m, rfl, -⟩ := exec_ldB_cases h
    exact ⟨fun _ _ _ _ => rfl, fun hb => absurd rfl (hb x)⟩
  case stRegs x =>
    obtain ⟨k, m, j, rfl, -⟩ := exec_stRegs_cases h
    exact ⟨fun _ _ _ _ => rfl, fun _ hst => absurd rfl (hst x)⟩
  case' ret => obtain ⟨k, d, p, rfl⟩ := exec_ret_cases h
  case' call nnn => obtain ⟨k, d, st, p, rfl⟩ := exec_call_cases h
  case' seImm | sneImm | seReg | sneReg => cases h; rw [skipIf_eq_setPc]
  case' addI x => obtain ⟨v, rfl⟩ := exec_addI_cases h
  case' ldRegs x => obtain ⟨k, v, j, rfl, -⟩ := exec_ldRegs_cases h
  case' ldImm | addImm | ldReg | orReg | andReg | xorReg | addReg | sub | shr | subn | shl | rnd =>
    cases h
  case' jp | jpV0 | ldI | ldF | errSys | errAlu | errE | errF => cases h
  all_goals exact ⟨fun _ _ _ _ => rfl, fun _ _ _ _ => rfl⟩

/-- Settles O48: `exec_sameFb_sameMem` for the instruction fetched, and a failed fetch leaves both. -/
theorem onlyTheirInstructionsChangePixelsAndMemory :
    Obligations.OnlyTheirInstructionsChangePixelsAndMemory := by
  intro s t h
  obtain ⟨-, ⟨w, k, u, hw, he, rfl, -⟩ | ⟨-, rfl⟩⟩ := step_cases h
  · rw [instrAt_eq_some.mpr ⟨w, hw, rfl⟩]
    obtain ⟨hfb, hmem⟩ := exec_sameFb_sameMem he
    refine ⟨fun hc hd => ?_, fun hb hst => ?_⟩
    · exact hfb (fun e => hc (congrArg some e)) fun x y n e => hd x y n (congrArg some e)
    · exact hmem (fun x e => hb x (congrArg some e)) fun x e => hst x (congrArg some e)
  · exact ⟨fun _ _ _ _ => rfl, fun _ _ _ _ => rfl⟩

end Sys2Proof.Machine

/-! PROOFS. The statements of 60_exceptions.md. Which instruction fails when, and with which kind, is one
table (`Raises`); `exec_fails_iff` says that `exec` follows it, and `step_fails_iff` adds the failed fetch. -/

namespace Sys2Proof.Machine

variable {s t : State} {i : Instr} {k k' : StatusKind}

/-! ### The failures of the instructions (R201 to R204) -/

/-- The instruction `i`, run in the state `s`, fails with the kind `k`: the rules R201 to R204 as a table.
It is tied to `exec` by `exec_fails_iff`. -/
inductive Raises (s : State) : Instr → StatusKind → Prop where
  | errE (nnn : Addr) : Raises s (.errE nnn) .unknownInstruction
  | errSys (nnn : Addr) : Raises s (.errSys nnn) .invalidInstruction
  | errAlu (x y : Reg) (n : Nibble) : Raises s (.errAlu x y n) .invalidInstruction
  | errF (x : Reg) (nn : Byte) : Raises s (.errF x nn) .invalidInstruction
  | drw (x y : Reg) (n : Nibble) (h : ¬ ReadsAllowed s n.toNat) :
      Raises s (.drw x y n) .invalidMemoryAccess
  | ldB (x : Reg) (h : ¬ WritesAllowed s 3) : Raises s (.ldB x) .invalidMemoryAccess
  | stRegs (x : Reg) (h : ¬ WritesAllowed s (x.val + 1)) : Raises s (.stRegs x) .invalidMemoryAccess
  | ldRegs (x : Reg) (h : ¬ ReadsAllowed s (x.val + 1)) : Raises s (.ldRegs x) .invalidMemoryAccess
  | ret (h : s.sp.val = 0) : Raises s .ret .invalidStackOperation
  | call (nnn : Addr) (h : s.sp.val = 16) : Raises s (.call nnn) .invalidStackOperation

/-- The fetch changes nothing the table asks about. -/
theorem raises_fetched_iff {w : Word} : Raises (fetched s w) i k ↔ Raises s i k := by
  constructor <;> intro h <;> cases h <;> constructor <;> assumption

theorem raises_unknownInstruction_iff :
    Raises s i .unknownInstruction ↔ ∃ nnn, i = .errE nnn := by
  constructor
  · rintro ⟨nnn⟩
    exact ⟨nnn, rfl⟩
  · rintro ⟨nnn, rfl⟩
    exact .errE nnn

theorem raises_invalidInstruction_iff : Raises s i .invalidInstruction ↔
    (∃ nnn, i = .errSys nnn) ∨ (∃ x y n, i = .errAlu x y n) ∨ ∃ x nn, i = .errF x nn := by
  constructor
  · intro h
    cases h <;> simp
  · rintro (⟨nnn, rfl⟩ | ⟨x, y, n, rfl⟩ | ⟨x, nn, rfl⟩) <;> constructor

theorem raises_invalidMemoryAccess_iff : Raises s i .invalidMemoryAccess ↔
    (∃ x y n, i = .drw x y n ∧ ¬ ReadsAllowed s n.toNat) ∨
    (∃ x, i = .ldB x ∧ ¬ WritesAllowed s 3) ∨
    (∃ x, i = .stRegs x ∧ ¬ WritesAllowed s (x.val + 1)) ∨
    (∃ x, i = .ldRegs x ∧ ¬ ReadsAllowed s (x.val + 1)) := by
  constructor
  · intro h
    cases h <;> simpa
  · rintro (⟨x, y, n, rfl, h⟩ | ⟨x, rfl, h⟩ | ⟨x, rfl, h⟩ | ⟨x, rfl, h⟩) <;> constructor <;> exact h

theorem raises_invalidStackOperation_iff : Raises s i .invalidStackOperation ↔
    (i = .ret ∧ s.sp.val = 0) ∨ ∃ nnn, i = .call nnn ∧ s.sp.val = 16 := by
  constructor
  · intro h
    cases h with
    | ret h => exact .inl ⟨rfl, h⟩
    | call nnn h => exact .inr ⟨nnn, rfl, h⟩
  · rintro (⟨rfl, h⟩ | ⟨nnn, rfl, h⟩)
    · exact .ret h
    · exact .call nnn h

/-- A listed failure is raised: the instruction answers its report and nothing else (R205). -/
theorem Raises.exec_eq (h : Raises s i k) : exec i s = .next (s.report k) := by
  cases h with
  | errE | errSys | errAlu | errF => rfl
  | drw x y n h => exact exec_drw_none (spanRead_of_not_allowed h)
  | ldB x h => exact exec_ldB_none (spanWrite_of_not_allowed h)
  | stRegs x h =>
    rw [← regsUpTo_length s x] at h
    exact exec_stRegs_none (spanWrite_of_not_allowed h)
  | ldRegs x h => exact exec_ldRegs_none (spanRead_of_not_allowed h)
  | ret h => exact exec_ret_empty h
  | call nnn h => exact exec_call_full nnn h

/-- The table is complete: an instruction with no failure in it completes. -/
theorem exec_success_or_raises (i : Instr) (s : State) :
    (∃ u : State, exec i s = .next (u.report .success)) ∨ ∃ k, Raises s i k := by
  cases i
  case errE => exact .inr ⟨_, .errE _⟩
  case errSys => exact .inr ⟨_, .errSys _⟩
  case errAlu => exact .inr ⟨_, .errAlu _ _ _⟩
  case errF => exact .inr ⟨_, .errF _ _⟩
  case drw x y n =>
    by_cases h : ReadsAllowed s n.toNat
    · exact .inl ⟨_, exec_drw_ok (spanRead_of_allowed h)⟩
    · exact .inr ⟨_, .drw x y n h⟩
  case ldB x =>
    by_cases h : WritesAllowed s 3
    · obtain ⟨u, hu⟩ := spanWrite_of_allowed (bs := decimalDigits (s.getV x)) h
      exact .inl ⟨u, exec_ldB_ok hu⟩
    · exact .inr ⟨_, .ldB x h⟩
  case stRegs x =>
    by_cases h : WritesAllowed s (x.val + 1)
    · rw [← regsUpTo_length s x] at h
      obtain ⟨u, hu⟩ := spanWrite_of_allowed h
      exact .inl ⟨_, exec_stRegs_ok hu⟩
    · exact .inr ⟨_, .stRegs x h⟩
  case ldRegs x =>
    by_cases h : ReadsAllowed s (x.val + 1)
    · exact .inl ⟨_, exec_ldRegs_ok (spanRead_of_allowed h)⟩
    · exact .inr ⟨_, .ldRegs x h⟩
  case ret =>
    rcases Nat.eq_zero_or_pos s.sp.val with h | h
    · exact .inr ⟨_, .ret h⟩
    · exact .inl ⟨_, exec_ret_ok h⟩
  case call nnn =>
    rcases Nat.lt_or_ge s.sp.val 16 with h | h
    · exact .inl ⟨_, exec_call_ok nnn h⟩
    · exact .inr ⟨_, .call nnn (by omega)⟩
  all_goals exact .inl ⟨_, rfl⟩

theorem kind_eq_of_report_eq (h : s.report k = t.report k') : k = k' :=
  congrArg CycleStatus.kind (Option.some.inj (congrArg State.status h))

/-- The kind an instruction reports, if it is not Success, is the one the table gives it. -/
theorem exec_fails_iff {u : State} (h : exec i s = .next (u.report k')) (hk : k ≠ .success) :
    k' = k ↔ Raises s i k := by
  constructor
  · rintro rfl
    obtain ⟨v, hv⟩ | ⟨k, hr⟩ := exec_success_or_raises i s
    · rw [h] at hv
      exact absurd (kind_eq_of_report_eq (Host.Outcome.next.inj hv)) hk
    · rw [hr.exec_eq] at h
      rwa [← kind_eq_of_report_eq (Host.Outcome.next.inj h)]
  · intro hr
    rw [hr.exec_eq] at h
    exact (kind_eq_of_report_eq (Host.Outcome.next.inj h)).symm

/-! ### The failures of a step -/

/-- A step fails with a kind exactly when the table gives it to the instruction at `pc`, or when the kind is
InvalidMemoryAccess and there is none, the fetch having failed. -/
theorem step_fails_iff (h : step s = .next t) (hk : k ≠ .success) :
    (∃ w, t.status = some ⟨k, w⟩) ↔
      (∃ i, s.instrAt = some i ∧ Raises s i k) ∨
      (s.memReadWord s.pc.toNat = none ∧ k = .invalidMemoryAccess) := by
  obtain ⟨-, ⟨w, k', u, hw, he, rfl, -⟩ | ⟨hn, rfl⟩⟩ := step_cases h
  · have hkind : (∃ w, (u.report k').nextInput.status = some ⟨k, w⟩) ↔ k' = k := by simp
    rw [hkind, exec_fails_iff he hk, raises_fetched_iff]
    simp [State.instrAt, hw]
  · have hkind : (∃ w, (fetchFailed s).nextInput.status = some ⟨k, w⟩) ↔
        k = .invalidMemoryAccess := by
      constructor
      · rintro ⟨w, hw⟩
        cases hw
        rfl
      · rintro rfl
        exact ⟨0, fetchFailed_status⟩
    rw [hkind]
    simp [State.instrAt, hn]

/-- Settles O43: both kinds of stack failure map to the kind, and in the table `00EE` and `2NNN` alone have
it. -/
theorem invalidStackOperationIsOverflowOrUnderflow :
    Obligations.InvalidStackOperationIsOverflowOrUnderflow := by
  refine ⟨fun e => by cases e <;> rfl, fun s t h => ?_⟩
  rw [step_fails_iff h (by decide)]
  simp only [raises_invalidStackOperation_iff]
  simp [and_or_left, exists_or]

/-- Settles O41: in the table only the error classes have the two kinds, and the words of the classes are
those of O5. -/
theorem decodeErrorsComeFromErrorClasses : Obligations.DecodeErrorsComeFromErrorClasses := by
  intro s t h
  rw [step_fails_iff h (by decide), step_fails_iff h (by decide)]
  simp only [raises_unknownInstruction_iff, raises_invalidInstruction_iff, instrAt_eq_some,
    ← exists_decodeWord_eq_errSys_iff, ← exists_decodeWord_eq_errAlu_iff,
    ← exists_decodeWord_eq_errE_iff, ← exists_decodeWord_eq_errF_iff]
  simp

/-- Settles O42: the fetch fails as `memReadWord_eq_none` says, and the rest is the table. Under `wrap` every
read is allowed, and under `allow` every write too (`writesAllowed_of_allow`). -/
theorem invalidMemoryAccessOnlyUnderFaultPolicies :
    Obligations.InvalidMemoryAccessOnlyUnderFaultPolicies := by
  intro s t h
  have hiff := step_fails_iff (k := .invalidMemoryAccess) h (by decide)
  simp only [raises_invalidMemoryAccess_iff, memReadWord_eq_none] at hiff
  refine ⟨?_, fun hwrap hallow w hw => ?_⟩
  · rw [hiff, or_comm]
    simp [and_or_left, exists_or]
  · have hreads (n : Nat) : ReadsAllowed s n := .inl hwrap
    have hwrites (n : Nat) : WritesAllowed s n := writesAllowed_of_allow hwrap hallow n
    have := hiff.mp ⟨w, hw⟩
    simp [hreads, hwrites, hwrap] at this

/-! ### What a failing step leaves alone (R205), and the record (R207) -/

/-- Settles O40: the instruction's part of a failing step is its report alone (`step_cases`), after the
fetch's advance of `pc`, and a failed fetch reports without it. -/
theorem failingStepChangesOnlyPc : Obligations.FailingStepChangesOnlyPc := by
  intro s t c h hc hfail
  obtain ⟨-, ⟨w, k, u, hw, -, rfl, -, hu⟩ | ⟨hn, rfl⟩⟩ := step_cases h
  · cases hc
    obtain rfl := hu hfail
    rw [hw]
    exact ⟨rfl, fun _ _ => rfl, rfl, ⟨rfl, fun _ => rfl⟩, fun _ _ => rfl, fun _ _ => rfl, rfl⟩
  · rw [hn]
    exact ⟨rfl, fun _ _ => rfl, rfl, ⟨rfl, fun _ => rfl⟩, fun _ _ => rfl, fun _ _ => rfl, rfl⟩

/-- Settles O44: a step ends in one report (`step_cases`), made over the record it found. -/
theorem errorRecordIsSticky : Obligations.ErrorRecordIsSticky := by
  intro s t c h hc
  obtain ⟨-, ⟨w, k, u, -, -, rfl, hu, -⟩ | ⟨-, rfl⟩⟩ := step_cases h
  · cases hc
    have hrecord : u.record = s.record := (congrArg State.record hu :)
    rw [nextInput_record, report_record, hrecord]
  · cases hc
    rfl

/-! ### The halt idiom (R216) -/

/-- Settles O45: the jump sets `pc` to the address it was fetched from. -/
theorem haltIdiomIsAFixedPoint : Obligations.HaltIdiomIsAFixedPoint := by
  intro s w nnn hb hw hd hpc
  have htarget : zextAddr nnn = s.pc := BitVec.eq_of_toNat_eq ((zextAddr_toNat nnn).trans hpc.symm)
  have he : exec (decodeWord w) (fetched s w) =
      .next (((fetched s w).setPc s.pc).report .success) := by
    rw [hd, ← htarget]
    rfl
  exact ⟨_, step_of_fetch hb hw he, rfl, rfl⟩

end Sys2Proof.Machine

/-! PROOFS. The statements of 70_reset_and_hazards.md. A bootstrap reads the parameters and the ROM alone
(`bootstrap_of_cfg_eq`), and a ROM that does not fit leaves what the empty ROM leaves
(`bootstrap_capacity`): memory zero outside the font (`bootstrap_nil_byteAt`), so the first word is 0x0000
(`bootstrap_nil_fetch`). -/

namespace Sys2Proof.Machine

variable {s s' : State} {rom : List Byte}

/-! ### What a bootstrap reads (R232) -/

/-- Two bootstraps under the same parameters differ in the pending input byte and its counter alone. -/
theorem bootstrap_of_cfg_eq (h : s'.cfg = s.cfg) :
    bootstrap rom s' =
      ((bootstrap rom s).1, { (bootstrap rom s).2 with rnd := s'.rnd, draws := s'.draws }) := by
  unfold bootstrap
  rw [h]

/-- Settles O56: both parts are `bootstrap_of_cfg_eq`, since a bootstrap keeps the parameters, the input
byte and the counter. -/
theorem bootstrapIsIdempotent : Obligations.BootstrapIsIdempotent := by
  intro rom s s' h
  have hcfg : (bootstrap rom s).2.cfg = s.cfg := rfl
  rw [bootstrap_of_cfg_eq h]
  exact ⟨rfl, rfl, bootstrap_of_cfg_eq hcfg⟩

/-! ### The empty ROM (R230) -/

theorem bootstrap_nil : bootstrap [] s = (.ok, (bootstrap [] s).2) :=
  bootstrap_ok (Nat.zero_le _)

/-- Settles O57: the empty ROM fits, and its bootstrap leaves the reset state (`bootstrap_nil_reset`). -/
theorem resetIsTheEmptyBootstrap : Obligations.ResetIsTheEmptyBootstrap := by
  unfold Obligations.ResetIsTheEmptyBootstrap
  rw [bootstrap_nil, bootstrap_nil_reset]

theorem bootstrap_nil_byteAt {a : Nat}
    (h : a < s.cfg.fontBase ∨ s.cfg.fontBase + fontSize ≤ a) : (bootstrap [] s).2.byteAt a = 0 :=
  (bootstrap_byteAt (Nat.zero_le _) a).trans (Memory.blank_other h)

theorem bootstrap_pc_toNat (hl : s.cfg.Legal) : (bootstrap rom s).2.pc.toNat = s.cfg.progBase := by
  obtain ⟨-, hbase, -⟩ := hl
  show (BitVec.ofNat 16 s.cfg.progBase).toNat = s.cfg.progBase
  rw [BitVec.toNat_ofNat]
  omega

/-- The fetch succeeds under either address policy: `PROG_BASE` is even, so both bytes of the word lie in
memory, and both lie outside the font region (R8). -/
theorem bootstrap_nil_fetch (hl : s.cfg.Legal) :
    (bootstrap [] s).2.memReadWord (bootstrap [] s).2.pc.toNat = some 0 := by
  rw [bootstrap_pc_toNat hl]
  obtain ⟨heven, hbase, -, hfont, -⟩ := hl
  have hbyte : ∀ a, s.cfg.progBase ≤ a → a ≤ s.cfg.progBase + 1 →
      (bootstrap [] s).2.memRead a = some 0 := by
    intro a hlo hhi
    have hout : a < s.cfg.fontBase ∨ s.cfg.fontBase + fontSize ≤ a := by
      simp only [fontSize] at hfont ⊢
      omega
    rw [memRead_of_ea (ea_of_le (by omega)), bootstrap_nil_byteAt hout]
  exact memReadWord_eq_some.mpr
    ⟨0, 0, hbyte _ le_rfl (Nat.le_succ _), hbyte _ (Nat.le_succ _) le_rfl, rfl⟩

/-! ### A ROM that does not fit (R233, R52) -/

theorem bootstrap_capacity (h : memSize - s.cfg.progBase < rom.length) :
    bootstrap rom s = (.capacityError, (bootstrap [] s).2) := by
  unfold bootstrap
  rw [loadProgram_capacity _ h]
  rfl

/-- The word 0x0000 is of the invalid class of category 0x0, so its step is a report and no more. -/
theorem step_of_fetch_zero (hb : s.booted = true) (h : s.memReadWord s.pc.toNat = some 0) :
    step s = .next ((fetched s 0).report .invalidInstruction).nextInput :=
  step_of_fetch hb h (Raises.errSys 0).exec_eq

/-- Settles O55: the state left is the empty ROM's (`bootstrap_capacity`), whose first step runs the word
0x0000 (`step_of_fetch_zero`). -/
theorem oversizedRomGivesCapacityError : Obligations.OversizedRomGivesCapacityError := by
  intro rom s hl hlong
  refine ⟨_, bootstrap_capacity hlong, bootstrap_nil, _,
    step_of_fetch_zero rfl (bootstrap_nil_fetch hl), rfl, ?_⟩
  have hpc := bootstrap_pc_toNat (rom := []) hl
  obtain ⟨-, hbase, -⟩ := hl
  show ((bootstrap [] s).2.pc + 2).toNat = s.cfg.progBase + 2
  rw [BitVec.toNat_add, hpc]
  exact Nat.mod_eq_of_lt (show s.cfg.progBase + 2 < 65536 by omega)

end Sys2Proof.Machine

/-! PROOFS. The sample words of 30_encoding.md, and memory as data (log entry 6). -/

namespace Sys2Proof.Machine

/-! ### Words written out from the encoding tables -/

/-- Settles O4: each word is closed, so `decode` computes its instruction. -/
theorem sampleWordsDecode : Obligations.SampleWordsDecode :=
  ⟨rfl, rfl, rfl, rfl, rfl, rfl, rfl, rfl, rfl, rfl⟩

/-! ### A canonical memory is determined by its bytes (R41) -/

theorem Memory.read_of_memSize_le {c : Config} {m : Memory} (h : Memory.wf c m) {a : Nat}
    (ha : memSize ≤ a) : Memory.read c m a = Memory.blank c a :=
  Cells.get_of_not_mem _ fun p hp hkey => (h.2 p hp).not_ge (hkey ▸ ha)

theorem Memory.ext {c : Config} {m m' : Memory} (h : Memory.wf c m) (h' : Memory.wf c m')
    (hread : ∀ a, a < memSize → Memory.read c m a = Memory.read c m' a) : m = m' := by
  refine Cells.ext_of_get h.1 h'.1 fun a => ?_
  rcases Nat.lt_or_ge a memSize with ha | ha
  · exact hread a ha
  · exact (read_of_memSize_le h ha).trans (read_of_memSize_le h' ha).symm

/-- Settles O32: addresses past memory are unlisted in both, so the two read the same everywhere, and a
canonical list is determined by its readings (`Cells.ext_of_get`). -/
theorem canonicalMemoryIsDeterminedByItsBytes :
    Obligations.CanonicalMemoryIsDeterminedByItsBytes :=
  fun _ _ _ => Memory.ext

end Sys2Proof.Machine
